-- ==== Sys2Proof/Word.lean ====
section
/-! DEFINITION. The word types of the frame codec. Every value of the block is unsigned
(spec/00_scope.md section 5; spec/40_checksum.md R86). -/

namespace Sys2Proof

/-- A byte: 0 to 255. -/
abbrev Byte := BitVec 8

/-- A 16-bit value: the checksum accumulator (R7, R11), a command word (R61). -/
abbrev Word := BitVec 16

/-- A message id as the wire carries it: 24 bits, `zext_24` of one byte under version 1 (R7, R55). -/
abbrev MsgId := BitVec 24

end Sys2Proof
end

