-- ==== Sys2Proof/Syntax.lean ====
section
/-! DEFINITION. The operations of the block and the two wire formats, one constructor of `Instr` per row
of spec/opcode_table.json (spec/30_encoding.md R61, R64). -/

namespace Sys2Proof

/-- The two protocol versions (spec/00_scope.md R3). -/
inductive Version where
  | v1
  | v2
deriving DecidableEq, Repr

/-- The operand record of TX.ENCODE (spec/42_tx_encode.md R131): three checked operands are naturals or
of any length, the rest are bytes by type (92_eei_decisions.md D27). -/
structure TxOperands where
  version : Nat
  messageId : Nat
  systemId : Byte
  componentId : Byte
  payload : List Byte
  sequence : Byte
deriving DecidableEq, Repr

/-- A version 1 frame on the wire (spec/30_encoding.md R52). The start byte is the format's own and
`payloadLength` is the payload's length. -/
structure FrameV1 where
  sequence : Byte
  systemId : Byte
  componentId : Byte
  messageId : Byte
  payload : List Byte
  checksum : Word
deriving DecidableEq, Repr

/-- A version 2 frame on the wire (spec/30_encoding.md R53), the two reserved flag bytes included. -/
structure FrameV2 where
  flag0 : Byte
  flag1 : Byte
  sequence : Byte
  systemId : Byte
  componentId : Byte
  messageId : MsgId
  payload : List Byte
  checksum : Word
deriving DecidableEq, Repr

/-- One constructor per row of spec/opcode_table.json. The first two are the wire formats that RX.STEP
meets at the head of RXBUF; the other nine are the operations of spec/00_scope.md R2. -/
inductive Instr where
  /-- FRAME.V1 (R52). -/
  | frameV1 (f : FrameV1)
  /-- FRAME.V2 (R53). -/
  | frameV2 (f : FrameV2)
  /-- RESET (R150). -/
  | reset
  /-- CRC.INIT (R88). -/
  | crcInit
  /-- CRC.ACC b (R89). -/
  | crcAcc (b : Byte)
  /-- CRC.READ (R90). -/
  | crcRead
  /-- RX.PUSH b (R111). -/
  | rxPush (b : Byte)
  /-- RX.STEP (R101). -/
  | rxStep
  /-- TX.ENCODE with its operand record (R131). -/
  | txEncode (r : TxOperands)
  /-- SEQ.TAKE (R137). -/
  | seqTake
  /-- CSR.READ n, the whole four-bit field of the table's row: numbers 5 to 15 are answered with BadOp by
  the operation itself (R152). -/
  | csrRead (n : BitVec 4)
deriving DecidableEq, Repr

end Sys2Proof
end

