-- ==== Sys2Proof/WellFormed.lean ====
section
/-! DEFINITION. Which instruction terms stand for something that can be written down on the wire or the
command port. -/

namespace Sys2Proof

/-- `payloadLength` is one byte (spec/00_scope.md R7), so a payload on the wire has at most 255 bytes. -/
def payloadFits (payload : List Byte) : Bool := payload.length ≤ 255

/-- The checks per constructor. Only the two wire formats have one: every command word of
spec/30_encoding.md R61 is well formed by its type, and TX.ENCODE accepts any operand record and answers
the ones that fit no frame with a refusal of its own (spec/42_tx_encode.md R132). -/
def WellFormed (i : Instr) : Bool :=
  match i with
  | .frameV1 f => payloadFits f.payload
  | .frameV2 f => payloadFits f.payload
  | .reset => true
  | .crcInit => true
  | .crcAcc _ => true
  | .crcRead => true
  | .rxPush _ => true
  | .rxStep => true
  | .txEncode _ => true
  | .seqTake => true
  | .csrRead _ => true

end Sys2Proof
end

