-- ==== Sys2Proof/Decode.lean ====
section
/-! DEFINITION. The two encodings of the block: the command word (spec/30_encoding.md R61) and the wire
frame (R52, R53, R55, R57). First the decoder, total, rejecting by name; then the encoder. -/

namespace Sys2Proof

/-! ## Wire frame lengths and start bytes -/

/-- The start byte of a version (spec/00_scope.md R9: STX1, STX2). -/
def Version.startByte (v : Version) : Byte :=
  match v with
  | .v1 => 0xFE#8
  | .v2 => 0xFD#8

/-- The version a start byte opens; no other byte value opens a frame (spec/30_encoding.md R50). -/
def Version.ofStart (b : Byte) : Option Version :=
  if b = 0xFE#8 then some .v1 else if b = 0xFD#8 then some .v2 else none

/-- The version as the natural number of the `Frame` record and of TX.ENCODE's operand (R3, R24). -/
def Version.number (v : Version) : Nat :=
  match v with
  | .v1 => 1
  | .v2 => 2

/-- The version a natural number names, if it names one (R3). -/
def Version.ofNumber (n : Nat) : Option Version :=
  match n with
  | 1 => some .v1
  | 2 => some .v2
  | _ => none

/-- HDR_LEN: the bytes from the start byte through the message id (spec/00_scope.md R9). -/
def Version.hdrLen (v : Version) : Nat :=
  match v with
  | .v1 => 6
  | .v2 => 10

/-- The largest message id a version's id field holds (spec/00_scope.md R7). -/
def Version.maxMessageId (v : Version) : Nat :=
  match v with
  | .v1 => 255
  | .v2 => 16777215

/-- CK_LEN (spec/00_scope.md R9). -/
def ckLen : Nat := 2

/-- FRAME_LEN(v, L) (spec/00_scope.md R9, spec/30_encoding.md R57), a sum of naturals. -/
def frameLen (v : Version) (len : Nat) : Nat := v.hdrLen + len + ckLen

/-- MAX_FRAME (spec/00_scope.md R9). -/
def maxFrame : Nat := 267

/-- `s[i]` of spec/00_scope.md section 5, where the caller has checked the index. -/
def byteAt (bs : List Byte) (i : Nat) : Byte := bs.getD i 0#8

/-- `s[i..j]` of spec/00_scope.md section 5. -/
def slice (bs : List Byte) (i j : Nat) : List Byte := (bs.take j).drop i

/-! ## Little-endian fields (spec/20_memory.md R30) -/

/-- The checksum from its two wire bytes, low byte first. -/
def joinChecksum (lo hi : Byte) : Word := hi ++ lo

/-- The checksum's two wire bytes, low byte first. -/
def checksumBytes (c : Word) : List Byte := [c.extractLsb' 0 8, c.extractLsb' 8 8]

/-- The version 2 message id from its three wire bytes, low byte first. -/
def joinMsgId (b0 b1 b2 : Byte) : MsgId := (b2 ++ b1 : BitVec 16) ++ b0

/-- The version 2 message id's three wire bytes, low byte first. -/
def msgIdBytes (m : MsgId) : List Byte := [m.extractLsb' 0 8, m.extractLsb' 8 8, m.extractLsb' 16 8]

/-! ## The decoder -/

/-- Why bytes or a command word decode to no instruction. -/
inductive DecodeError where
  /-- The command word's `op` is in 0x9 to 0xF (spec/30_encoding.md R61). -/
  | reservedOp
  /-- A bit of the command word's bits 11:8 is set (R61). -/
  | reservedBits
  /-- `arg` has a bit set where the operation's row says it must be 0 (R61). -/
  | argNotZero
  /-- The first byte is neither 0xFE nor 0xFD (spec/30_encoding.md R59 row 1). -/
  | notStartByte
  /-- A start byte and fewer bytes than the frame needs, or no byte at all (R59 row 2). -/
  | incomplete
deriving DecidableEq, Repr

/-- What stands at the head of a byte sequence: tests (1) to (4) of spec/41_rx_decode.md R112. -/
inductive WireHead where
  /-- Empty, or a start byte with the header or the frame incomplete (R105, R106). -/
  | needMore
  /-- A byte that opens no frame (R104). -/
  | skip (b : Byte)
  /-- A complete candidate of the given version; its length is `total` (R57). -/
  | candidate (v : Version) (total : Nat)
deriving DecidableEq, Repr

/-- R101 down to `if n < T`: `RXBUF[1]` is read only once the whole header is there (R105). -/
def wireHead (bs : List Byte) : WireHead :=
  match bs with
  | [] => .needMore
  | b0 :: _ =>
    match Version.ofStart b0 with
    | none => .skip b0
    | some v =>
      if bs.length < v.hdrLen then .needMore
      else if bs.length < frameLen v (byteAt bs 1).toNat then .needMore
      else .candidate v (frameLen v (byteAt bs 1).toNat)

/-- Field assembly, version 1 column of spec/30_encoding.md R55, from the bytes of a complete frame. -/
def parseV1 (bs : List Byte) : FrameV1 :=
  let len := (byteAt bs 1).toNat
  { sequence := byteAt bs 2
    systemId := byteAt bs 3
    componentId := byteAt bs 4
    messageId := byteAt bs 5
    payload := slice bs 6 (6 + len)
    checksum := joinChecksum (byteAt bs (6 + len)) (byteAt bs (7 + len)) }

/-- Field assembly, version 2 column of R55; the flag bytes stand at offsets 2 and 3 (R53). -/
def parseV2 (bs : List Byte) : FrameV2 :=
  let len := (byteAt bs 1).toNat
  { flag0 := byteAt bs 2
    flag1 := byteAt bs 3
    sequence := byteAt bs 4
    systemId := byteAt bs 5
    componentId := byteAt bs 6
    messageId := joinMsgId (byteAt bs 7) (byteAt bs 8) (byteAt bs 9)
    payload := slice bs 10 (10 + len)
    checksum := joinChecksum (byteAt bs (10 + len)) (byteAt bs (11 + len)) }

/-- The wire instruction whose bytes are exactly `bs`, a complete candidate of version `v`. -/
def parseWire (v : Version) (bs : List Byte) : Instr :=
  match v with
  | .v1 => .frameV1 (parseV1 bs)
  | .v2 => .frameV2 (parseV2 bs)

/-- The wire instruction at the head of `bs` and the bytes after it (R64: matched on byte 0). -/
def decodeWire (bs : List Byte) : Except DecodeError (Instr × List Byte) :=
  match wireHead bs with
  | .needMore => .error .incomplete
  | .skip _ => .error .notStartByte
  | .candidate v total => .ok (parseWire v (bs.take total), bs.drop total)

/-- An operation of R61 whose `arg` must be 0. -/
def noArg (arg : Byte) (i : Instr) : Except DecodeError Instr :=
  if arg = 0#8 then .ok i else .error .argNotZero

/-- The command word of R61 with the operand record beside it (used by TX.ENCODE alone). -/
def decodeCommand (w : Word) (operands : TxOperands) : Except DecodeError Instr :=
  let arg : Byte := w.extractLsb' 0 8
  if w.extractLsb' 8 4 ≠ 0#4 then .error .reservedBits
  else
    match (w.extractLsb' 12 4).toNat with
    | 0x0 => noArg arg .reset
    | 0x1 => noArg arg .crcInit
    | 0x2 => .ok (.crcAcc arg)
    | 0x3 => noArg arg .crcRead
    | 0x4 => .ok (.rxPush arg)
    | 0x5 => noArg arg .rxStep
    | 0x6 => noArg arg (.txEncode operands)
    | 0x7 => noArg arg .seqTake
    | 0x8 => if w.extractLsb' 4 4 ≠ 0#4 then .error .argNotZero else .ok (.csrRead (w.extractLsb' 0 4))
    | _ => .error .reservedOp

/-- An instruction as it is written down: a command word with its operand record, or wire bytes. -/
inductive Encoded where
  | command (w : Word) (operands : TxOperands)
  | wire (bytes : List Byte)
deriving DecidableEq, Repr

/-- The decoder, total on any command word and any bytes. -/
def decode (e : Encoded) : Except DecodeError Instr :=
  match e with
  | .command w operands => decodeCommand w operands
  | .wire bytes => (decodeWire bytes).map Prod.fst

/-! ## The encoder -/

/-- A version 1 header (spec/30_encoding.md R52, spec/42_tx_encode.md R131). -/
def headerV1 (len sequence systemId componentId messageId : Byte) : List Byte :=
  [Version.v1.startByte, len, sequence, systemId, componentId, messageId]

/-- A version 2 header (R53, R131). -/
def headerV2 (len flag0 flag1 sequence systemId componentId : Byte) (messageId : MsgId) : List Byte :=
  [Version.v2.startByte, len, flag0, flag1, sequence, systemId, componentId] ++ msgIdBytes messageId

/-- The length byte of a payload. -/
def lenByte (payload : List Byte) : Byte := BitVec.ofNat 8 payload.length

/-- The wire bytes of a version 1 frame: header, payload, checksum (R51, R52). -/
def wireV1 (f : FrameV1) : List Byte :=
  headerV1 (lenByte f.payload) f.sequence f.systemId f.componentId f.messageId ++ f.payload
    ++ checksumBytes f.checksum

/-- The wire bytes of a version 2 frame (R51, R53). -/
def wireV2 (f : FrameV2) : List Byte :=
  headerV2 (lenByte f.payload) f.flag0 f.flag1 f.sequence f.systemId f.componentId f.messageId ++ f.payload
    ++ checksumBytes f.checksum

/-- The operand record of an operation that has none: every field zero or empty. -/
def TxOperands.none : TxOperands :=
  { version := 0, messageId := 0, systemId := 0#8, componentId := 0#8, payload := [], sequence := 0#8 }

/-- The encoder, from the same tables (R52, R53, R61). -/
def encode (i : Instr) : Encoded :=
  match i with
  | .frameV1 f => .wire (wireV1 f)
  | .frameV2 f => .wire (wireV2 f)
  | .reset => .command 0x0000#16 .none
  | .crcInit => .command 0x1000#16 .none
  | .crcAcc b => .command (0x20#8 ++ b) .none
  | .crcRead => .command 0x3000#16 .none
  | .rxPush b => .command (0x40#8 ++ b) .none
  | .rxStep => .command 0x5000#16 .none
  | .txEncode r => .command 0x6000#16 r
  | .seqTake => .command 0x7000#16 .none
  | .csrRead n => .command (0x800#12 ++ n) .none

/-! ## The opcode table's rows -/

/-- The bytes of a wire row's word: the first `nbits` bits of `w`, least significant byte first, and
zeros up to the longest frame (log entry 18). -/
def rowBytes (nbits w : Nat) : List Byte :=
  (List.range maxFrame).map fun k => BitVec.ofNat 8 ((w % 2 ^ nbits) >>> (8 * k))

/-- The instruction the decoder reads from a table row's word: the rows of 16 bits are command words, the
others are wire formats matched on byte 0 (R64; log entry 18). -/
def decodeTableWord (nbits w : Nat) : Option Instr :=
  let e : Encoded :=
    if nbits = 16 then .command (BitVec.ofNat 16 w) .none else .wire (rowBytes nbits w)
  match decode e with
  | .ok i => some i
  | .error _ => none

end Sys2Proof
end

