-- ==== Sys2Proof/Config.lean ====
section
/-! DEFINITION. What one build of the block fixes: the parameters of spec/00_scope.md R8 as they stand
in `State.reset`. Every definition and statement of the model takes the parameters from the state, so
these values are used by `State.reset` alone. -/

namespace Sys2Proof.Config

/-- The registry's descriptors as (message id, extra CRC seed) rows, in any order. R8 gives SEED no
default: "the model is stated for every `SEED`". So no body: nothing can be proved of its rows.
DESIGN CHOICE, safe (log entry 4). -/
opaque seedRows : List (Nat × Byte)

/-- BUF_CAP's default (R8). It meets R8's constraint `BUF_CAP >= 267` (log entry 5). -/
def bufCap : Nat := 512

/-- CNT_W's default (R8). It meets R8's constraint `CNT_W >= 1` (log entry 5). -/
def cntW : Nat := 32

end Sys2Proof.Config
end

