-- ==== Sys2Proof/Machine/Registry.lean ====
section
/-! DEFINITION. The lookup space SEED: message id to optional extra CRC seed (spec/00_scope.md R8,
spec/10_state.md R22, spec/20_memory.md R41). It is a list of (id, byte) pairs in one canonical form: ids
strictly rising and at most 16777215; an id that is not listed reads as none. -/

namespace Sys2Proof.Machine

/-- The largest message id (spec/00_scope.md R7). -/
def maxMessageId : Nat := 16777215

/-- `SEED(id)`: the exact id or nothing (R41: "no partial/fuzzy matching"). -/
def Registry.lookup (seed : List Host.Cell) (id : Nat) : Option Byte :=
  match seed with
  | [] => none
  | (k, b) :: rest => if k = id then some b else Registry.lookup rest id

/-- One more descriptor in the canonical list; a descriptor that is already there stays (the source's
registry is append-only, R41). Used to give the parameter its form before a run, by no operation. -/
def Registry.insert (id : Nat) (b : Byte) (seed : List Host.Cell) : List Host.Cell :=
  match seed with
  | [] => [(id, b)]
  | (k, c) :: rest =>
    if id < k then (id, b) :: (k, c) :: rest
    else if id = k then (k, c) :: rest
    else (k, c) :: Registry.insert id b rest

/-- The canonical list of the given rows, those with an id of more than 24 bits left out. -/
def Registry.ofRows (rows : List (Nat × Byte)) : List Host.Cell :=
  match rows with
  | [] => []
  | (id, b) :: rest =>
    if id ≤ maxMessageId then Registry.insert id b (Registry.ofRows rest) else Registry.ofRows rest

/-- Every id of the list is above `low`: the tail condition of the canonical form. -/
def Registry.above (low : Nat) (seed : List Host.Cell) : Bool :=
  match seed with
  | [] => true
  | (k, _) :: _ => low < k

/-- The canonical form holds: ids strictly rising, each a 24-bit id. -/
def Registry.wf (seed : List Host.Cell) : Bool :=
  match seed with
  | [] => true
  | (k, _) :: rest => decide (k ≤ maxMessageId) && Registry.above k rest && Registry.wf rest

end Sys2Proof.Machine
end

