-- ==== Sys2Proof/Machine/State.lean ====
section
/-! DEFINITION. The state of the machine: the block's five items, its parameters, and the model's port. -/

namespace Sys2Proof.Machine

/-! ## Values that operations return -/

/-- The `Frame` record (spec/10_state.md R24): a value, not state. -/
structure Frame where
  protocolVersion : Version
  payloadLength : Byte
  sequence : Byte
  systemId : Byte
  componentId : Byte
  messageId : MsgId
  payload : List Byte
  checksum : Word
deriving DecidableEq, Repr

/-- The outcomes of RX.STEP, a closed set (spec/41_rx_decode.md R102). -/
inductive RxOutcome where
  /-- Not enough bytes to decide (R105, R106). -/
  | needMore
  /-- One byte that opens no frame was discarded (R104). -/
  | skip (b : Byte)
  /-- A verified frame, the only delivered one (R110). -/
  | frame (f : Frame)
  /-- A candidate of an unregistered id was consumed unverified (R108). -/
  | unknownMessage (f : Frame)
  /-- A candidate of a known id failed its checksum (R109). -/
  | checksumError
deriving DecidableEq, Repr

/-- The refusals of TX.ENCODE (spec/42_tx_encode.md R132). -/
inductive EncRefusal where
  /-- The version is neither 1 nor 2. -/
  | badVersion
  /-- The message id does not fit the version's id field. -/
  | badMessageId
  /-- The payload has more than 255 bytes. -/
  | payloadTooLong
  /-- The message id has no descriptor. -/
  | unknownMessage
deriving DecidableEq, Repr

/-- What an operation ends with, every row of spec/60_exceptions.md R160. -/
inductive OpOutcome where
  /-- RESET, CRC.INIT and CRC.ACC. -/
  | done
  /-- CRC.READ, SEQ.TAKE and CSR.READ: the value, zero-extended to whatever width the port has (R152). -/
  | value (v : Nat)
  /-- RX.PUSH took the byte (R111). -/
  | pushOk
  /-- RX.PUSH met a full buffer and took nothing (R111). -/
  | pushRefused
  /-- RX.STEP. -/
  | rx (o : RxOutcome)
  /-- TX.ENCODE built a frame (R131). -/
  | encoded (bytes : List Byte)
  /-- TX.ENCODE was refused (R132). -/
  | encRefused (r : EncRefusal)
  /-- The command word matches no form, or CSR.READ named no register (R152, R153). -/
  | badOp
deriving DecidableEq, Repr

/-! ## How a step can stop -/

/-- The faults. Nothing of the block faults (spec/60_exceptions.md R171, R173). -/
inductive Fault where
  /-- Raised by the meanings of FRAME.V1 and FRAME.V2 alone, when RXBUF does not begin with the frame's
  bytes: the bytes to act on do not exist (spec/20_memory.md R34). Safe; no step of the machine reaches it
  (log entry 7). -/
  | candidateNotAtHead
deriving DecidableEq, Repr

/-- The refusals. -/
inductive Refusal where
  /-- Raised by `exec`'s arm of an instruction that has no meaning yet. Safe; no arm answers it. -/
  | notModelled (mnemonic : String)
deriving DecidableEq, Repr

/-! ## The state -/

/-- The whole state of the block: the five items of spec/10_state.md R10 and nothing else. The counters
are naturals kept below `2 ^ CNT_W` (R16, R17), since their width is a parameter (log entry 10). -/
structure Block where
  /-- ACC, 16 bits (R11). -/
  acc : Word
  /-- SEQ, 8 bits (R12). -/
  seq : Byte
  /-- CNT_UNKNOWN, CNT_W bits (R16). -/
  cntUnknown : Nat
  /-- CNT_CKSUM, CNT_W bits (R17). -/
  cntCksum : Nat
  /-- RXBUF, oldest byte first (R22). -/
  rxbuf : List Byte
deriving DecidableEq, Repr

/-- The parameters of spec/00_scope.md R8, which no operation changes (log entry 3). -/
structure Params where
  /-- SEED, in the canonical form of `Registry.wf`. -/
  seed : List Host.Cell
  /-- BUF_CAP. -/
  bufCap : Nat
  /-- CNT_W. -/
  cntW : Nat
deriving DecidableEq, Repr

/-- What an agent puts on the operation port: the command word and the operand record beside it
(spec/30_encoding.md R61). -/
structure Request where
  word : Word
  operands : TxOperands
deriving DecidableEq, Repr

/-- The MODEL's own view of the operation port (log entry 2). -/
structure Port where
  /-- The operations issued and not yet performed, in the total order of spec/20_memory.md R36. -/
  pending : List Request
  /-- The outcomes returned to the agents, newest first. -/
  outcomes : List OpOutcome
deriving DecidableEq, Repr

/-- The machine: the block, its parameters, its port. -/
structure State where
  params : Params
  block : Block
  port : Port
deriving DecidableEq, Repr

/-! ## Reset -/

/-- The block after RESET (spec/70_reset_and_hazards.md R190). -/
def Block.reset : Block :=
  { acc := 0xFFFF#16, seq := 0x00#8, cntUnknown := 0, cntCksum := 0, rxbuf := [] }

/-- A RESET has been performed under the given parameters and nothing since (R190, R192). -/
def State.resetWith (p : Params) : State :=
  { params := p, block := Block.reset, port := { pending := [], outcomes := [] } }

/-- The parameters at their defaults (R8), SEED being Config's uninterpreted table. -/
def Params.default : Params :=
  { seed := Registry.ofRows Config.seedRows, bufCap := Config.bufCap, cntW := Config.cntW }

/-- The machine right after reset. -/
def State.reset : State := State.resetWith Params.default

end Sys2Proof.Machine
end

