-- ==== Sys2Proof/Machine/Ops.lean ====
section
/-! DEFINITION. The named operations every meaning is written over: the checksum functions, RXBUF and its
three accesses, the counters, and how an operation ends. -/

namespace Sys2Proof.Machine

/-! ## The checksum (spec/40_checksum.md) -/

/-- CRC_INIT (spec/00_scope.md R9). -/
def crcInitValue : Word := 0xFFFF#16

/-- `crc_step(a, b)` (R81): `t` and `t'` are 8 bits wide, so the bits of `t << 4` past bit 7 are dropped. -/
def crcStep (a : Word) (b : Byte) : Word :=
  let t : Byte := b ^^^ a.setWidth 8
  let t' : Byte := t ^^^ (t <<< 4)
  (a >>> 8) ^^^ (t'.setWidth 16 <<< 8) ^^^ (t'.setWidth 16 <<< 3) ^^^ (t'.setWidth 16 >>> 4)

/-- One turn of the bit-serial form's loop (R82). -/
def crcBit (a : Word) : Word :=
  if a.getLsbD 0 then (a >>> 1) ^^^ 0x8408#16 else a >>> 1

/-- `crc_step_bits(a, b)` (R82): the reflected polynomial 0x8408, eight turns. -/
def crcStepBits (a : Word) (b : Byte) : Word :=
  crcBit (crcBit (crcBit (crcBit (crcBit (crcBit (crcBit (crcBit (a ^^^ b.setWidth 16))))))))

/-- `crc_fold(a, s)`, first byte first (R83). -/
def crcFold (a : Word) (s : List Byte) : Word :=
  match s with
  | [] => a
  | b :: rest => crcFold (crcStep a b) rest

/-- `crc16(s, seed)`: the source's `crc(bytes, extraSeed)`; the seed last, no final exclusive-or (R84,
R85). -/
def crc16 (s : List Byte) (seed : Byte) : Word := crcStep (crcFold crcInitValue s) seed

/-! ## RXBUF (spec/10_state.md R22, spec/20_memory.md R33) -/

/-- The byte at a distance from the head; an index at or past RXLEN does not exist (R34). -/
def Memory.readByte (buf : List Byte) (i : Nat) : Option Byte := buf[i]?

/-- `MemRead(0, n)`: the `n` bytes at the head (spec/00_scope.md section 5). -/
def Memory.readHead (buf : List Byte) (n : Nat) : List Byte := buf.take n

/-- `Append(b)` (spec/00_scope.md section 5). -/
def Memory.append (buf : List Byte) (b : Byte) : List Byte := buf ++ [b]

/-- `Pop(n)` (spec/00_scope.md section 5). -/
def Memory.pop (buf : List Byte) (n : Nat) : List Byte := buf.drop n

/-- The form RXBUF always has: at most BUF_CAP bytes (R10). A queue of bytes as a list is canonical as it
stands: two queues are equal exactly when the lists are (log entry 11). -/
def Memory.wf (bufCap : Nat) (buf : List Byte) : Bool := decide (buf.length ≤ bufCap)

/-- RXLEN, and the value of RX_LEVEL (R18). -/
def Block.rxLen (b : Block) : Nat := b.rxbuf.length

/-! ## Counters -/

/-- `(n + 1) mod 2^CNT_W` (spec/10_state.md R16, R17): the wrap is silent (R205). -/
def bumpCounter (cntW n : Nat) : Nat := (n + 1) % 2 ^ cntW

/-! ## How an operation ends -/

/-- `return v` and `raise X(info)` of spec/00_scope.md section 5, the one shared operation by which every
operation ends (spec/60_exceptions.md R171): the block holds exactly the state change of the operation's
rule, the outcome goes back to the agent, and nothing else happens. No state is saved, no mode switched, no
control transferred; there is no return from it because nothing was entered (R172). -/
def State.finish (s : State) (b : Block) (o : OpOutcome) : State :=
  { s with block := b, port := { s.port with outcomes := o :: s.port.outcomes } }

/-- A refusal: the outcome is returned and no state of the block changes (spec/60_exceptions.md R168). -/
def State.refuse (s : State) (o : OpOutcome) : State := s.finish s.block o

/-- The state with the port's oldest request taken. -/
def State.withPending (s : State) (rest : List Request) : State :=
  { s with port := { s.port with pending := rest } }

end Sys2Proof.Machine
end

