-- ==== Sys2Proof/Machine/Operands.lean ====
section
/-! DEFINITION. The operand forms: the delivered frame of a wire candidate, the checksum region, the
decision on a complete candidate, the encode request, the register numbers. -/

namespace Sys2Proof.Machine

/-! ## Wire candidates as operands (spec/30_encoding.md R54, R55) -/

/-- The `Frame` of a version 1 candidate: `messageId = zext_24(B[5])` (R55). -/
def frameOfV1 (f : FrameV1) : Frame :=
  { protocolVersion := .v1, payloadLength := lenByte f.payload, sequence := f.sequence
    systemId := f.systemId, componentId := f.componentId, messageId := f.messageId.setWidth 24
    payload := f.payload, checksum := f.checksum }

/-- The `Frame` of a version 2 candidate: the flag bytes are no field of it (R56). -/
def frameOfV2 (f : FrameV2) : Frame :=
  { protocolVersion := .v2, payloadLength := lenByte f.payload, sequence := f.sequence
    systemId := f.systemId, componentId := f.componentId, messageId := f.messageId
    payload := f.payload, checksum := f.checksum }

/-- The fields RX.STEP extracts from the bytes `bs` of a complete candidate (R55, R107). -/
def assembleFrame (v : Version) (bs : List Byte) : Frame :=
  match v with
  | .v1 => frameOfV1 (parseV1 bs)
  | .v2 => frameOfV2 (parseV2 bs)

/-- The checksum region of a complete frame, `frame[1 .. HDR_LEN(v) + L]` (R54). -/
def checksumRegion (v : Version) (bs : List Byte) : List Byte :=
  slice bs 1 (v.hdrLen + (byteAt bs 1).toNat)

/-! ## Decisions of the receive side (spec/41_rx_decode.md R102) -/

/-- What one RX.STEP decides: its outcome and how many bytes leave the head of RXBUF. -/
structure RxDecision where
  outcome : RxOutcome
  consumed : Nat
deriving DecidableEq, Repr

/-- The decision on a complete candidate (R107 to R110): the unknown-id test comes before the checksum
test (R112), an unknown id consumes the whole candidate unverified, a checksum mismatch drops one byte. -/
def decideCandidate (seed : List Host.Cell) (v : Version) (bs : List Byte) : RxDecision :=
  let f := assembleFrame v bs
  match Registry.lookup seed f.messageId.toNat with
  | none => { outcome := .unknownMessage f, consumed := bs.length }
  | some sd =>
    if crc16 (checksumRegion v bs) sd ≠ f.checksum then { outcome := .checksumError, consumed := 1 }
    else { outcome := .frame f, consumed := bs.length }

/-- RX.STEP as a function of RXBUF and SEED (R101, R116), its tests in the order of R112. -/
def rxDecide (seed : List Host.Cell) (buf : List Byte) : RxDecision :=
  match wireHead buf with
  | .needMore => { outcome := .needMore, consumed := 0 }
  | .skip b => { outcome := .skip b, consumed := 1 }
  | .candidate v total => decideCandidate seed v (Memory.readHead buf total)

/-- `step(buf) = (o, buf')` of R116: the outcome of RX.STEP and the RXBUF it leaves, the form in which R117, R118
and R119 (prefix stability: a decision other than NeedMore is not changed by bytes that arrive later) speak of
RX.STEP. Their proofs of it are `rxBufStep_needMore`, `rxBufStep_length_lt` and `rxBufStep_append`
(Laws/Receive.lean). -/
def rxBufStep (seed : List Host.Cell) (buf : List Byte) : RxOutcome × List Byte :=
  let d := rxDecide seed buf
  (d.outcome, Memory.pop buf d.consumed)

/-- A decision carried out on the block: the bytes are popped and the outcome's counter, if it has one,
moves by one (R102, last two columns but one; the counter change depends on the outcome only, R116). -/
def Block.applyDecision (cntW : Nat) (b : Block) (d : RxDecision) : Block :=
  let popped := { b with rxbuf := Memory.pop b.rxbuf d.consumed }
  match d.outcome with
  | .needMore => popped
  | .skip _ => popped
  | .frame _ => popped
  | .unknownMessage _ => { popped with cntUnknown := bumpCounter cntW b.cntUnknown }
  | .checksumError => { popped with cntCksum := bumpCounter cntW b.cntCksum }

/-! ## The encode request (spec/42_tx_encode.md R131, R132) -/

/-- The header TX.ENCODE writes; the flag bytes of version 2 are zero (spec/30_encoding.md R56). -/
def txHeader (v : Version) (r : TxOperands) : List Byte :=
  match v with
  | .v1 =>
    headerV1 (lenByte r.payload) r.sequence r.systemId r.componentId (BitVec.ofNat 8 r.messageId)
  | .v2 =>
    headerV2 (lenByte r.payload) 0x00#8 0x00#8 r.sequence r.systemId r.componentId
      (BitVec.ofNat 24 r.messageId)

/-- The frame TX.ENCODE returns for operands that fit and a known id: the checksum runs over the written
bytes from `payloadLength` on (R131). -/
def buildFrame (v : Version) (r : TxOperands) (sd : Byte) : List Byte :=
  let hdr := txHeader v r
  hdr ++ r.payload ++ checksumBytes (crc16 (hdr.drop 1 ++ r.payload) sd)

/-- TX.ENCODE as the pure function it is (R133), its tests in the order of R132. -/
def encodeFrame (seed : List Host.Cell) (r : TxOperands) : Except EncRefusal (List Byte) :=
  match Version.ofNumber r.version with
  | none => .error .badVersion
  | some v =>
    if v.maxMessageId < r.messageId then .error .badMessageId
    else if 255 < r.payload.length then .error .payloadTooLong
    else
      match Registry.lookup seed r.messageId with
      | none => .error .unknownMessage
      | some sd => .ok (buildFrame v r sd)

/-! ## Register numbers (spec/10_state.md R20) -/

/-- The register `CSR.READ n` reads, none for the reserved numbers 5 to 15. -/
def Block.register (b : Block) (n : BitVec 4) : Option Nat :=
  match n.toNat with
  | 0 => some b.acc.toNat
  | 1 => some b.seq.toNat
  | 2 => some b.cntUnknown
  | 3 => some b.cntCksum
  | 4 => some b.rxLen
  | _ => none

end Sys2Proof.Machine
end

