-- ==== Sys2Proof/Machine/Checksum.lean ====
section
/-! DEFINITION. The checksum port: CRC.INIT, CRC.ACC, CRC.READ (spec/40_checksum.md section 5). -/

namespace Sys2Proof.Machine

/-- CRC.INIT (R88): `ACC <- 0xFFFF`. -/
def execCrcInit (s : State) : Host.Outcome State Fault Refusal :=
  .next (s.finish { s.block with acc := crcInitValue } .done)

/-- CRC.ACC b (R89): `ACC <- crc_step(ACC, b)`, whatever ACC holds. -/
def execCrcAcc (b : Byte) (s : State) : Host.Outcome State Fault Refusal :=
  .next (s.finish { s.block with acc := crcStep s.block.acc b } .done)

/-- CRC.READ (R90): `return ACC`; ACC is unchanged. -/
def execCrcRead (s : State) : Host.Outcome State Fault Refusal :=
  .next (s.finish s.block (.value s.block.acc.toNat))

end Sys2Proof.Machine
end

