-- ==== Sys2Proof/Machine/Flags.lean ====
section
/-! DEFINITION. The block stores no flag, condition code or sticky bit (spec/10_state.md R15), and no rule
computes one ("Flags: none" in every operation rule). What an operation found is its outcome; this file
holds the two columns of spec/60_exceptions.md R160 that classify outcomes. -/

namespace Sys2Proof.Machine

/-- The kinds of R160. -/
inductive OutcomeKind where
  /-- A normal completion. -/
  | result
  /-- Changes nothing and asks for more input. -/
  | idle
  /-- A non-success that changes state so as to make progress. -/
  | recovery
  /-- Changes nothing and produces nothing. -/
  | refusal
deriving DecidableEq, Repr

/-- The kind of an RX.STEP outcome (R160). -/
def RxOutcome.kind (o : RxOutcome) : OutcomeKind :=
  match o with
  | .needMore => .idle
  | .skip _ => .recovery
  | .frame _ => .result
  | .unknownMessage _ => .recovery
  | .checksumError => .recovery

/-- The kind of an outcome (R160). -/
def OpOutcome.kind (o : OpOutcome) : OutcomeKind :=
  match o with
  | .done => .result
  | .value _ => .result
  | .pushOk => .result
  | .pushRefused => .refusal
  | .rx r => r.kind
  | .encoded _ => .result
  | .encRefused _ => .refusal
  | .badOp => .refusal

/-- The code of a refusal of TX.ENCODE (R132). -/
def EncRefusal.code (r : EncRefusal) : Byte :=
  match r with
  | .badVersion => 0x10#8
  | .badMessageId => 0x11#8
  | .payloadTooLong => 0x12#8
  | .unknownMessage => 0x13#8

/-- The code of an RX.STEP outcome, where R160 gives it one: the class numbers of the source's taxonomy. -/
def RxOutcome.code (o : RxOutcome) : Option Byte :=
  match o with
  | .needMore => some 0x02#8
  | .skip _ => none
  | .frame _ => none
  | .unknownMessage _ => some 0x04#8
  | .checksumError => some 0x03#8

/-- The code of an outcome, where R160 gives it one. -/
def OpOutcome.code (o : OpOutcome) : Option Byte :=
  match o with
  | .done => none
  | .value _ => none
  | .pushOk => none
  | .pushRefused => some 0x14#8
  | .rx r => r.code
  | .encoded _ => none
  | .encRefused r => some r.code
  | .badOp => some 0x1F#8

end Sys2Proof.Machine
end

