-- ==== Sys2Proof/Machine/Receive.lean ====
section
/-! DEFINITION. The receive side: RX.PUSH and RX.STEP (spec/41_rx_decode.md). -/

namespace Sys2Proof.Machine

/-- RX.PUSH on the block (R111): refused with no change on a full buffer. -/
def Block.push (bufCap : Nat) (b : Block) (x : Byte) : Block × OpOutcome :=
  if b.rxLen = bufCap then (b, .pushRefused)
  else ({ b with rxbuf := Memory.append b.rxbuf x }, .pushOk)

/-- RX.STEP on the block (R101). -/
def Block.rxStep (p : Params) (b : Block) : Block × RxOutcome :=
  let d := rxDecide p.seed b.rxbuf
  (b.applyDecision p.cntW d, d.outcome)

/-- RX.PUSH b (R111). -/
def execRxPush (b : Byte) (s : State) : Host.Outcome State Fault Refusal :=
  let r := s.block.push s.params.bufCap b
  .next (s.finish r.1 r.2)

/-- RX.STEP (R101). It does not touch ACC (spec/10_state.md R11). -/
def execRxStep (s : State) : Host.Outcome State Fault Refusal :=
  let r := s.block.rxStep s.params
  .next (s.finish r.1 (.rx r.2))

end Sys2Proof.Machine
end

