-- ==== Sys2Proof/Machine/System.lean ====
section
/-! DEFINITION. The system operations: RESET and CSR.READ (spec/43_system.md). -/

namespace Sys2Proof.Machine

/-- RESET (R150): every item of the block at its reset value; the parameters are left alone. -/
def execReset (s : State) : Host.Outcome State Fault Refusal :=
  .next (s.finish Block.reset .done)

/-- The outcome of `CSR.READ n` (R152): the register's value, or BadOp for a reserved number. -/
def csrOutcome (b : Block) (n : BitVec 4) : OpOutcome :=
  match b.register n with
  | some v => .value v
  | none => .badOp

/-- CSR.READ n (R152): no state changes. -/
def execCsrRead (n : BitVec 4) (s : State) : Host.Outcome State Fault Refusal :=
  .next (s.finish s.block (csrOutcome s.block n))

end Sys2Proof.Machine
end

