-- ==== Sys2Proof/Machine/Transmit.lean ====
section
/-! DEFINITION. The transmit side: TX.ENCODE and SEQ.TAKE (spec/42_tx_encode.md). -/

namespace Sys2Proof.Machine

/-- The outcome of TX.ENCODE: the frame's bytes or one of the four refusals (R131, R132). -/
def txOutcome (seed : List Host.Cell) (r : TxOperands) : OpOutcome :=
  match encodeFrame seed r with
  | .ok bytes => .encoded bytes
  | .error e => .encRefused e

/-- SEQ after one SEQ.TAKE: `(SEQ + 1) mod 256` (R137). -/
def Block.advanceSeq (b : Block) : Block := { b with seq := b.seq + 1#8 }

/-- TX.ENCODE (R131): it reads SEED and reads and writes no state of the block (R133). -/
def execTxEncode (r : TxOperands) (s : State) : Host.Outcome State Fault Refusal :=
  .next (s.finish s.block (txOutcome s.params.seed r))

/-- SEQ.TAKE (R137): return SEQ, then increment modulo 256, in one step (R40). -/
def execSeqTake (s : State) : Host.Outcome State Fault Refusal :=
  .next (s.finish s.block.advanceSeq (.value s.block.seq.toNat))

end Sys2Proof.Machine
end

