-- ==== Sys2Proof/Machine/Wire.lean ====
section
/-! DEFINITION. The two wire formats as instructions (spec/30_encoding.md R52, R53, R64): what RX.STEP does
with a complete candidate at the head of RXBUF (spec/41_rx_decode.md R107 to R110; log entry 7). -/

namespace Sys2Proof.Machine

/-- The candidate with bytes `bs` decided and carried out, where RXBUF begins with it. -/
def consumeCandidate (v : Version) (bs : List Byte) (s : State) : Host.Outcome State Fault Refusal :=
  if bs.isPrefixOf s.block.rxbuf then
    let d := decideCandidate s.params.seed v bs
    .next (s.finish (s.block.applyDecision s.params.cntW d) (.rx d.outcome))
  else .fault .candidateNotAtHead

/-- FRAME.V1 (R52). -/
def execFrameV1 (f : FrameV1) (s : State) : Host.Outcome State Fault Refusal :=
  consumeCandidate .v1 (wireV1 f) s

/-- FRAME.V2 (R53). -/
def execFrameV2 (f : FrameV2) (s : State) : Host.Outcome State Fault Refusal :=
  consumeCandidate .v2 (wireV2 f) s

end Sys2Proof.Machine
end

