-- ==== Sys2Proof/Machine/Dispatch.lean ====
section
/-! DEFINITION. One arm per constructor of `Instr`. -/

namespace Sys2Proof.Machine

def exec (i : Instr) (s : State) : Host.Outcome State Fault Refusal :=
  match i with
  | .frameV1 f => Sys2Proof.Machine.execFrameV1 f s
  | .frameV2 f => Sys2Proof.Machine.execFrameV2 f s
  | .reset => Sys2Proof.Machine.execReset s
  | .crcInit => Sys2Proof.Machine.execCrcInit s
  | .crcAcc b => Sys2Proof.Machine.execCrcAcc b s
  | .crcRead => Sys2Proof.Machine.execCrcRead s
  | .rxPush b => Sys2Proof.Machine.execRxPush b s
  | .rxStep => Sys2Proof.Machine.execRxStep s
  | .txEncode r => Sys2Proof.Machine.execTxEncode r s
  | .seqTake => Sys2Proof.Machine.execSeqTake s
  | .csrRead n => Sys2Proof.Machine.execCsrRead n s

end Sys2Proof.Machine
end

