-- ==== Sys2Proof/Machine/Fetch.lean ====
section
/-! DEFINITION. How the machine meets its next instruction: the oldest pending request of the port, its
command word decoded with the operand record beside it (spec/20_memory.md R36, spec/30_encoding.md R61). -/

namespace Sys2Proof.Machine

/-- What the next step has before it. -/
inductive Fetched where
  /-- No operation is pending. -/
  | idle
  /-- The operation to run, in the state with its request taken. -/
  | run (i : Instr) (s : State)
  /-- The command word matches no form; the state is the one after its refusal. -/
  | rejected (s : State)
deriving DecidableEq, Repr

/-- The oldest request taken and decoded. A word that matches no form answers BadOp, nothing of the block
is read and nothing of it changes (spec/43_system.md R153; log entry 6). -/
def State.fetch (s : State) : Fetched :=
  match s.port.pending with
  | [] => .idle
  | q :: rest =>
    match decodeCommand q.word q.operands with
    | .ok i => .run i (s.withPending rest)
    | .error _ => .rejected ((s.withPending rest).refuse .badOp)

/-- A command word issued with no operand record. -/
def Request.ofWord (w : Word) : Request := { word := w, operands := .none }

/-- RX.STEP's request. -/
def Request.rxStep : Request := Request.ofWord 0x5000#16

/-- A command word as the oldest request (log entry 18). -/
def State.placeCommand (s : State) (w : Word) : State :=
  s.withPending (Request.ofWord w :: s.port.pending)

/-- Wire bytes over the first bytes of RXBUF, and RX.STEP, the operation that meets them there, as the
oldest request (log entry 18). -/
def State.placeWire (s : State) (bytes : List Byte) : State :=
  { s with
    block := { s.block with rxbuf := bytes ++ s.block.rxbuf.drop bytes.length }
    port := { s.port with pending := Request.rxStep :: s.port.pending } }

end Sys2Proof.Machine
end

