-- ==== Sys2Proof/Machine/Step.lean ====
section
/-! DEFINITION. One step of the machine: the oldest pending operation is performed, whole (spec/20_memory.md
R36). -/

namespace Sys2Proof.Machine

/-- The block never acts by itself: with no operation pending nothing changes (spec/10_state.md R26; log
entry 1). -/
def step (s : State) : Host.Outcome State Fault Refusal :=
  match s.fetch with
  | .idle => .next s
  | .run i t => exec i t
  | .rejected t => .next t

/-- A table row's word where the next step meets it (log entry 18). -/
def State.withFetchWord (s : State) (nbits w : Nat) : State :=
  if nbits = 16 then s.placeCommand (BitVec.ofNat 16 w) else s.placeWire (rowBytes nbits w)

end Sys2Proof.Machine
end

