-- ==== Sys2Proof/Machine/Pseudo.lean ====
section
/-! DEFINITION. The results of the pseudo-operations of spec/30_encoding.md R63 where no other agent's operation
falls between their steps, the decoding of a whole byte stream and the schedules of spec/41_rx_decode.md R120. None
of these is an operation of the block: each is written over the operations. The expansions themselves, which are
not atomic, are the scripts of Machine/Script.lean. -/

namespace Sys2Proof.Machine

/-! ## Requests -/

/-- CRC.ACC b's request. -/
def Request.crcAcc (b : Byte) : Request := Request.ofWord (0x20#8 ++ b)

/-- RX.PUSH b's request. -/
def Request.rxPush (b : Byte) : Request := Request.ofWord (0x40#8 ++ b)

/-- `CRC16 s, seed` (R63): CRC.INIT, a CRC.ACC for each byte, one for the seed, CRC.READ. -/
def crc16Requests (s : List Byte) (seed : Byte) : List Request :=
  Request.ofWord 0x1000#16 :: s.map Request.crcAcc
    ++ [Request.crcAcc seed, Request.ofWord 0x3000#16]

/-! ## Draining -/

/-- At most `fuel` RX.STEPs, stopping at the first NeedMore: the block left and the outcomes before it. -/
def Block.drainFor (p : Params) (fuel : Nat) (b : Block) : Block × List RxOutcome :=
  match fuel with
  | 0 => (b, [])
  | n + 1 =>
    let r := b.rxStep p
    if r.2 = .needMore then (r.1, [])
    else
      let t := Block.drainFor p n r.1
      (t.1, r.2 :: t.2)

/-- RX.DRAIN (R63), uninterrupted. It ends after at most RXLEN + 1 steps (spec/41_rx_decode.md R118), so the fuel is never
what stops it. -/
def Block.drain (p : Params) (b : Block) : Block × List RxOutcome := b.drainFor p (b.rxLen + 1)

/-! ## Feeding -/

/-- One byte of RX.FEED (R63): while RX.PUSH is refused, one RX.STEP whose outcome is kept. With
`BUF_CAP >= 267` one RX.STEP makes room (spec/70_reset_and_hazards.md R195), so the fuel is never what stops
it (log entry 15). -/
def Block.feedByte (p : Params) (fuel : Nat) (x : Byte) (b : Block) : Block × List RxOutcome :=
  match fuel with
  | 0 => (b, [])
  | n + 1 =>
    let r := b.push p.bufCap x
    if r.2 = .pushOk then (r.1, [])
    else
      let q := b.rxStep p
      let t := Block.feedByte p n x q.1
      (t.1, q.2 :: t.2)

/-- RX.FEED without its last RX.DRAIN. -/
def Block.feedBytes (p : Params) (bytes : List Byte) (b : Block) : Block × List RxOutcome :=
  match bytes with
  | [] => (b, [])
  | x :: rest =>
    let r := b.feedByte p (b.rxLen + 2) x
    let t := Block.feedBytes p rest r.1
    (t.1, r.2 ++ t.2)

/-- `RX.FEED s` (R63), uninterrupted. An empty `s` is drained (log entry 22). -/
def Block.feed (p : Params) (bytes : List Byte) (b : Block) : Block × List RxOutcome :=
  let r := b.feedBytes p bytes
  let t := r.1.drain p
  (t.1, r.2 ++ t.2)

/-- The chunks of `RX.FEED s / k`: `k` bytes each, the last one perhaps shorter. DESIGN CHOICE (log entry 22): R63
does not say whether an empty `s` is one empty chunk, to be fed with its drain, or none; here it is none, so nothing
is done. -/
def chunksOf (k fuel : Nat) (bytes : List Byte) : List (List Byte) :=
  match fuel with
  | 0 => []
  | n + 1 => if bytes.isEmpty then [] else bytes.take k :: chunksOf k n (bytes.drop k)

/-- One RX.FEED per chunk. -/
def Block.feedAll (p : Params) (chunks : List (List Byte)) (b : Block) : Block × List RxOutcome :=
  match chunks with
  | [] => (b, [])
  | c :: rest =>
    let r := b.feed p c
    let t := Block.feedAll p rest r.1
    (t.1, r.2 ++ t.2)

/-- `RX.FEED s / k` (R63), uninterrupted, for `k` at least 1. -/
def Block.feedChunked (p : Params) (k : Nat) (bytes : List Byte) (b : Block) : Block × List RxOutcome :=
  b.feedAll p (chunksOf k bytes.length bytes)

/-! ## Sending -/

/-- `TX.SEND v id sys comp payload` (R63), uninterrupted: a SEQ.TAKE, then a TX.ENCODE with the value taken; the value is
consumed even when the encode is refused (spec/70_reset_and_hazards.md R204). The operands' own `sequence`
is not used. -/
def Block.txSend (p : Params) (r : TxOperands) (b : Block) : Block × OpOutcome :=
  (b.advanceSeq, txOutcome p.seed { r with sequence := b.seq })

/-! ## A whole stream (spec/41_rx_decode.md R120) -/

/-- At most `fuel` decisions on a buffer that nothing is pushed to: the outcomes and what is left. -/
def decodeFor (seed : List Host.Cell) (fuel : Nat) (buf : List Byte) : List RxOutcome × List Byte :=
  match fuel with
  | 0 => ([], buf)
  | n + 1 =>
    let d := rxDecide seed buf
    if d.outcome = .needMore then ([], buf)
    else
      let t := decodeFor seed n (Memory.pop buf d.consumed)
      (d.outcome :: t.1, t.2)

/-- `decode_stream(s)`: the outcomes RX.DRAIN returns from `RXBUF = s`, whatever BUF_CAP. -/
def decodeStream (seed : List Host.Cell) (s : List Byte) : List RxOutcome :=
  (decodeFor seed (s.length + 1) s).1

/-- `rest(s)`: the RXBUF that drain leaves. -/
def streamRest (seed : List Host.Cell) (s : List Byte) : List Byte :=
  (decodeFor seed (s.length + 1) s).2

/-- One operation of a receive schedule. -/
inductive RxAction where
  | push (b : Byte)
  | step
deriving DecidableEq, Repr

/-- The request that performs it. -/
def RxAction.request (a : RxAction) : Request :=
  match a with
  | .push b => Request.rxPush b
  | .step => Request.rxStep

/-- What a schedule of pushes and steps does: the block it leaves, the outcomes of its RX.STEPs other than
NeedMore in order, and the bytes whose RX.PUSH was accepted in order. -/
structure RxRun where
  block : Block
  outcomes : List RxOutcome
  accepted : List Byte
deriving DecidableEq, Repr

/-- A schedule performed from a block. A refused push is repeated by standing in the schedule again. -/
def rxSchedule (p : Params) (actions : List RxAction) (b : Block) : RxRun :=
  match actions with
  | [] => { block := b, outcomes := [], accepted := [] }
  | .push x :: rest =>
    let r := b.push p.bufCap x
    let t := rxSchedule p rest r.1
    { t with accepted := if r.2 = .pushOk then x :: t.accepted else t.accepted }
  | .step :: rest =>
    let r := b.rxStep p
    let t := rxSchedule p rest r.1
    { t with outcomes := if r.2 = .needMore then t.outcomes else r.2 :: t.outcomes }

end Sys2Proof.Machine
end

