-- ==== Sys2Proof/Machine/Script.lean ====
section
/-! DEFINITION. The pseudo-operations of spec/30_encoding.md R63 as what they are: expansions into operations,
none of them atomic. A script is an agent's expansion under way; other agents' operations fall between its steps
(log entry 23). -/

namespace Sys2Proof.Machine

/-! ## Scripts -/

/-- What is left to do of an expansion, piece by piece. -/
inductive ScriptTask where
  /-- One operation whose outcome is not part of the result. -/
  | issue (q : Request)
  /-- One operation whose outcome is part of the result. -/
  | keep (q : Request)
  /-- RX.STEPs until one answers NeedMore, the outcomes before it kept. -/
  | drain
  /-- RX.PUSH of the byte until it is accepted. -/
  | push (b : Byte)
  /-- RX.PUSH of the byte has been refused: the one RX.STEP before the next try, its outcome kept. -/
  | makeRoom (b : Byte)
  /-- SEQ.TAKE, then TX.ENCODE of the operands with the value taken. -/
  | send (r : TxOperands)
deriving DecidableEq, Repr

/-- An expansion under way: the tasks left and the outcomes kept so far, in order. -/
structure Script where
  tasks : List ScriptTask
  kept : List OpOutcome
deriving DecidableEq, Repr

/-- TX.ENCODE's request. -/
def Request.txEncode (r : TxOperands) : Request := { word := 0x6000#16, operands := r }

/-- SEQ.TAKE's request. -/
def Request.seqTake : Request := Request.ofWord 0x7000#16

/-- The operation a task issues next. -/
def ScriptTask.request (k : ScriptTask) : Request :=
  match k with
  | .issue q => q
  | .keep q => q
  | .drain => Request.rxStep
  | .push b => Request.rxPush b
  | .makeRoom _ => Request.rxStep
  | .send _ => Request.seqTake

/-- What is left of a task once its operation has answered, and whether the answer is part of the result. -/
def ScriptTask.after (k : ScriptTask) (o : OpOutcome) : List ScriptTask × List OpOutcome :=
  match k with
  | .issue _ => ([], [])
  | .keep _ => ([], [o])
  | .drain => if o = .rx .needMore then ([], []) else ([.drain], [o])
  | .push b => if o = .pushOk then ([], []) else ([.makeRoom b], [])
  | .makeRoom b => ([.push b], [o])
  | .send r =>
    match o with
    | .value v => ([.keep (Request.txEncode { r with sequence := BitVec.ofNat 8 v })], [])
    | _ => ([], [])

/-- The operation the script issues next, none when it is finished. -/
def Script.request (c : Script) : Option Request := c.tasks.head?.map ScriptTask.request

/-- The script once its operation has answered. -/
def Script.advance (c : Script) (o : OpOutcome) : Script :=
  match c.tasks with
  | [] => c
  | k :: rest => { tasks := (k.after o).1 ++ rest, kept := c.kept ++ (k.after o).2 }

/-! ## The expansions of R63 -/

/-- A script at its beginning. -/
def Script.start (tasks : List ScriptTask) : Script := { tasks := tasks, kept := [] }

/-- `CRC16 s, seed`: the result is the value read. -/
def Script.crc16 (s : List Byte) (seed : Byte) : Script :=
  Script.start (.issue (Request.ofWord 0x1000#16) :: s.map (fun b => .issue (Request.crcAcc b))
    ++ [.issue (Request.crcAcc seed), .keep (Request.ofWord 0x3000#16)])

/-- `RX.DRAIN`. -/
def Script.drain : Script := Script.start [.drain]

/-- The tasks of `RX.FEED s`: the bytes in order, then a drain. -/
def feedTasks (s : List Byte) : List ScriptTask := s.map .push ++ [.drain]

/-- `RX.FEED s`. -/
def Script.feed (s : List Byte) : Script := Script.start (feedTasks s)

/-- `RX.FEED s / k`, for `k` at least 1: one RX.FEED per chunk. For an empty `s` there is no chunk and nothing is
done: DESIGN CHOICE, see `chunksOf` (log entry 22). -/
def Script.feedChunked (k : Nat) (s : List Byte) : Script :=
  Script.start ((chunksOf k s.length s).flatMap feedTasks)

/-- `TX.SEND`: the operands' own `sequence` is not used. The value is consumed even when the encode is refused
(spec/70_reset_and_hazards.md R204). -/
def Script.txSend (r : TxOperands) : Script := Script.start [.send r]

/-! ## Scripts among other traffic -/

/-- One turn: first the other agents' operations, in the order given, then the script's next one, all of them
before whatever else is pending (spec/20_memory.md R36). A finished script issues nothing. -/
def Script.turn (others : List Request) (c : Script) (s : State) :
    Host.Outcome (Script × State) Fault Refusal :=
  match core.run others.length (s.withPending (others ++ s.port.pending)) with
  | .fault r => .fault r
  | .refused r => .refused r
  | .next u =>
    match c.request with
    | none => .next (c, u)
    | some q =>
      match step (State.withPending u (q :: u.port.pending)) with
      | .fault r => .fault r
      | .refused r => .refused r
      | .next t =>
        match t.port.outcomes with
        | [] => .next (c, t)
        | o :: _ => .next (c.advance o, t)

/-- A script performed over turns, the other agents' operations of each turn given: every interleaving of the
script with other traffic is some list of turns. -/
def Script.perform (turns : List (List Request)) (c : Script) (s : State) :
    Host.Outcome (Script × State) Fault Refusal :=
  match turns with
  | [] => .next (c, s)
  | others :: rest =>
    match c.turn others s with
    | .fault r => .fault r
    | .refused r => .refused r
    | .next (d, t) => Script.perform rest d t

end Sys2Proof.Machine
end

