-- ==== Sys2Proof/Safety.lean ====
section
/-! DEFINITION. What claims about the machine are stated in: the invariant of a run, what a returned value may
be, the groups of operations, the results of a run. -/

namespace Sys2Proof.Machine

/-! ## The invariant -/

/-- The constraints on the parameters (spec/00_scope.md R8), SEED's canonical form among them. -/
structure Params.Legal (p : Params) : Prop where
  bufCap_ge : maxFrame ≤ p.bufCap
  cntW_pos : 1 ≤ p.cntW
  seed_wf : Registry.wf p.seed = true

/-- Every register holds a value of its width and RXBUF at most BUF_CAP bytes (spec/10_state.md R10). -/
structure Block.Legal (p : Params) (b : Block) : Prop where
  rxbuf_wf : Memory.wf p.bufCap b.rxbuf = true
  cntUnknown_lt : b.cntUnknown < 2 ^ p.cntW
  cntCksum_lt : b.cntCksum < 2 ^ p.cntW

/-- The invariant on every `Frame` that RX.STEP returns (spec/10_state.md R24): the payload has the declared
length, and a version 1 id is at most 255. -/
def Frame.Sound (f : Frame) : Prop :=
  f.payload.length = f.payloadLength.toNat ∧ f.messageId.toNat ≤ f.protocolVersion.maxMessageId

/-- A returned value is one the spec allows: frames are sound (R24) and an encoded frame has the length of a
frame, 8 to 267 bytes (spec/30_encoding.md R57). -/
def OpOutcome.Sound (o : OpOutcome) : Prop :=
  match o with
  | .rx (.frame f) => f.Sound
  | .rx (.unknownMessage f) => f.Sound
  | .encoded w => 8 ≤ w.length ∧ w.length ≤ maxFrame
  | _ => True

/-- The invariant of a run. -/
structure State.Inv (s : State) : Prop where
  params_legal : s.params.Legal
  block_legal : s.block.Legal s.params
  outcomes_sound : ∀ o ∈ s.port.outcomes, o.Sound

/-! ## Groups of operations (spec/20_memory.md R37) -/

/-- The three groups that share no state, and RESET, which belongs to all of them. -/
inductive OpGroup where
  | receive
  | transmit
  | checksumPort
  | all
deriving DecidableEq, Repr

/-- The group of an instruction; the wire formats act where RX.STEP does. CSR.READ of a reserved number
reads nothing and is put with the receive group. -/
def opGroup (i : Instr) : OpGroup :=
  match i with
  | .frameV1 _ => .receive
  | .frameV2 _ => .receive
  | .reset => .all
  | .crcInit => .checksumPort
  | .crcAcc _ => .checksumPort
  | .crcRead => .checksumPort
  | .rxPush _ => .receive
  | .rxStep => .receive
  | .txEncode _ => .transmit
  | .seqTake => .transmit
  | .csrRead n =>
    match n.toNat with
    | 0 => .checksumPort
    | 1 => .transmit
    | _ => .receive

/-- The request is of no operation of group `g`, nor RESET. A word of no form is of no group: it touches nothing
(spec/43_system.md R153). -/
def Request.Outside (g : OpGroup) (q : Request) : Prop :=
  ∀ i, decodeCommand q.word q.operands = .ok i → opGroup i ≠ g ∧ opGroup i ≠ .all

/-- The operation a request asks for, if it is one that writes ACC (spec/10_state.md R10). -/
def Request.writesAcc (q : Request) : Option Instr :=
  match decodeCommand q.word q.operands with
  | .ok .reset => some .reset
  | .ok .crcInit => some .crcInit
  | .ok (.crcAcc b) => some (.crcAcc b)
  | _ => none

/-! ## What RX.STEP makes of a candidate -/

/-- The state after RX.STEP has met the candidate with bytes `w`, record `f` and checksum region `region` at
the head of RXBUF, `x` being the bytes after it (spec/41_rx_decode.md R108 to R110). -/
def candidateResult (s : State) (f : Frame) (region w x : List Byte) : State :=
  match Registry.lookup s.params.seed f.messageId.toNat with
  | none =>
    s.finish
      { s.block with rxbuf := x, cntUnknown := (s.block.cntUnknown + 1) % 2 ^ s.params.cntW }
      (.rx (.unknownMessage f))
  | some sd =>
    if crc16 region sd = f.checksum then s.finish { s.block with rxbuf := x } (.rx (.frame f))
    else
      s.finish
        { s.block with
          rxbuf := w.tail ++ x, cntCksum := (s.block.cntCksum + 1) % 2 ^ s.params.cntW }
        (.rx .checksumError)

/-! ## The results of a run (spec/70_reset_and_hazards.md R194) -/

/-- The frames among outcomes: only `Frame(f)` is a delivered frame (spec/41_rx_decode.md R102). -/
def delivered (outcomes : List RxOutcome) : List Frame :=
  outcomes.filterMap fun o =>
    match o with
    | .frame f => some f
    | _ => none

/-- How many outcomes are UnknownMessage. -/
def unknownCount (outcomes : List RxOutcome) : Nat :=
  outcomes.countP fun o =>
    match o with
    | .unknownMessage _ => true
    | _ => false

/-- How many outcomes are ChecksumError. -/
def checksumErrorCount (outcomes : List RxOutcome) : Nat :=
  outcomes.countP fun o => decide (o = .checksumError)

/-- The RX.STEP outcomes other than NeedMore. -/
def rxOutcomes (outcomes : List OpOutcome) : List RxOutcome :=
  outcomes.filterMap fun o =>
    match o with
    | .rx .needMore => none
    | .rx r => some r
    | _ => none

/-- The byte sequences TX.ENCODE returned. -/
def encodedFrames (outcomes : List OpOutcome) : List (List Byte) :=
  outcomes.filterMap fun o =>
    match o with
    | .encoded w => some w
    | _ => none

/-- The RX.STEP outcomes other than NeedMore among all the port has returned, in order, over as many runs as it
has returned outcomes of. -/
def State.receiveOutcomes (s : State) : List RxOutcome := rxOutcomes s.port.outcomes.reverse

/-- A run: the operations between one RESET and the next (spec/00_scope.md section 6), by the outcomes they ended
with, in order, and the block they leave (log entry 24). -/
structure Run where
  outcomes : List OpOutcome
  final : Block
deriving DecidableEq, Repr

/-- The receive result of a run (R194): the delivered frames in order, the same with the other outcomes of RX.STEP
that are not NeedMore interleaved, the final counter values and the final RXBUF. -/
structure ReceiveResult where
  frames : List Frame
  decisions : List RxOutcome
  cntUnknown : Nat
  cntCksum : Nat
  rxbuf : List Byte
deriving DecidableEq, Repr

/-- The transmit result of a run (R194): the byte sequences TX.ENCODE returned in order and the final SEQ. -/
structure TransmitResult where
  frames : List (List Byte)
  seq : Byte
deriving DecidableEq, Repr

/-- R194's receive result. -/
def Run.receiveResult (r : Run) : ReceiveResult :=
  { frames := delivered (rxOutcomes r.outcomes), decisions := rxOutcomes r.outcomes
    cntUnknown := r.final.cntUnknown, cntCksum := r.final.cntCksum, rxbuf := r.final.rxbuf }

/-- R194's transmit result. -/
def Run.transmitResult (r : Run) : TransmitResult :=
  { frames := encodedFrames r.outcomes, seq := r.final.seq }

/-- The request asks for RESET. -/
def Request.isReset (q : Request) : Bool :=
  match decodeCommand q.word q.operands with
  | .ok .reset => true
  | _ => false

/-- A run that goes on: one outcome before those of the first run. -/
def continueRun (o : OpOutcome) (runs : List Run) : List Run :=
  match runs with
  | [] => []
  | r :: rest => { r with outcomes := o :: r.outcomes } :: rest

/-- The runs of the next `n` operations, the first one going on from the state given. A RESET ends a run with the
block as it stands before it and begins the next; its own outcome belongs to neither (log entry 24). -/
def runsFor (n : Nat) (s : State) : List Run :=
  match n with
  | 0 => [{ outcomes := [], final := s.block }]
  | k + 1 =>
    match s.port.pending with
    | [] => [{ outcomes := [], final := s.block }]
    | q :: _ =>
      match step s with
      | .fault _ => [{ outcomes := [], final := s.block }]
      | .refused _ => [{ outcomes := [], final := s.block }]
      | .next t =>
        if q.isReset then { outcomes := [], final := s.block } :: runsFor k t
        else
          match t.port.outcomes with
          | [] => runsFor k t
          | o :: _ => continueRun o (runsFor k t)

/-- The runs of all the pending operations. -/
def State.runs (s : State) : List Run := runsFor s.port.pending.length s

/-- Quiescent on the receive side (R194): no pending request is an RX.PUSH any more and RX.STEP would answer
NeedMore. DESIGN CHOICE (log entry 25): R194 does not say whether a push after the next RESET, of another run,
counts; here every pending RX.PUSH counts, those after a later RESET too. -/
def State.Quiescent (s : State) : Prop :=
  (∀ q ∈ s.port.pending, ∀ b, decodeCommand q.word q.operands ≠ .ok (.rxPush b)) ∧
    (rxDecide s.params.seed s.block.rxbuf).outcome = .needMore

end Sys2Proof.Machine
end

