-- ==== Sys2Proof/Certificates/Slice0/Obligations.lean ====
section
/-! DEFINITION. The statements about the machine. -/

section

open Sys2Proof Sys2Proof.Machine

/-! ## Encoding -/

/-- R61: six of the command words of the table decode to the operation they stand for. -/
def Obligations.CommandWordsDecodeAsTabulated : Prop :=
  ∀ r : TxOperands,
    decodeCommand 0x0000#16 r = .ok .reset ∧ decodeCommand 0x2032#16 r = .ok (.crcAcc 0x32#8) ∧
    decodeCommand 0x40FE#16 r = .ok (.rxPush 0xFE#8) ∧ decodeCommand 0x5000#16 r = .ok .rxStep ∧
    decodeCommand 0x6000#16 r = .ok (.txEncode r) ∧ decodeCommand 0x8004#16 r = .ok (.csrRead 4#4)

/-- Decode and encode agree on every well-formed instruction, wire frames and commands alike (R52, R53, R55,
R61). -/
def Obligations.DecodeInvertsEncode : Prop :=
  ∀ i : Instr, WellFormed i = true → decode (encode i) = .ok i

/-- A well-formed wire frame is read off the head of a stream whole, and exactly its own bytes are consumed
(R55, R57). -/
def Obligations.WireDecodeConsumesExactlyTheFrame : Prop :=
  (∀ (f : FrameV1) (x : List Byte), f.payload.length ≤ 255 →
    decodeWire (wireV1 f ++ x) = .ok (.frameV1 f, x)) ∧
  (∀ (f : FrameV2) (x : List Byte), f.payload.length ≤ 255 →
    decodeWire (wireV2 f ++ x) = .ok (.frameV2 f, x))

/-- Whatever the wire decoder reads is well formed, and encoding it gives back the very bytes it was read
from: no bit of a wire frame is dropped (R52, R53, R55). -/
def Obligations.WireDecodeLosesNoBit : Prop :=
  ∀ (bytes x : List Byte) (i : Instr), decodeWire bytes = .ok (i, x) →
    WellFormed i = true ∧ ∃ w, encode i = .wire w ∧ bytes = w ++ x

/-- A command word that decodes is the word its operation encodes to: no two words of R61 mean the same. -/
def Obligations.CommandWordsAreUnambiguous : Prop :=
  ∀ (w : Word) (r : TxOperands) (i : Instr), decodeCommand w r = .ok i →
    ∃ r', encode i = .command w r'

/-! ## Steps -/

/-- The oldest request's word decodes to `i`: the step is `exec i` on the state with that request taken, and
nothing is added around it (R36). -/
def Obligations.StepRunsTheDecodedInstruction : Prop :=
  ∀ (s : State) (q : Request) (rest : List Request) (i : Instr), s.port.pending = q :: rest →
    decodeCommand q.word q.operands = .ok i → step s = exec i (s.withPending rest)

/-- RX.STEP with a well-formed wire frame at the head of RXBUF runs that frame's instruction: the step is
`exec` of the wire instruction (R64, R101). -/
def Obligations.StepRunsTheFrameAtTheHead : Prop :=
  ∀ (s : State) (q : Request) (rest : List Request) (i : Instr) (w x : List Byte),
    s.port.pending = q :: rest → decodeCommand q.word q.operands = .ok .rxStep →
    WellFormed i = true → encode i = .wire w → s.block.rxbuf = w ++ x →
      step s = exec i (s.withPending rest)

/-- With no operation pending the step changes nothing: the block never acts by itself (R26). That such a
step is taken at all is the model's (log entry 1). -/
def Obligations.IdleStepChangesNothing : Prop :=
  ∀ s : State, s.port.pending = [] → step s = .next s

/-- A command word that is not one of the forms of R61 answers BadOp, code 0x1F, and no state of the block changes
(R153, R160). That such a word is a next state with its request taken, where R153 calls it a refusal in the sense of
the modelling guide, is the model's choice (log entry 6, DEDUCED from R160 and R172). -/
def Obligations.WordsOfNoFormAnswerBadOp : Prop :=
  (OpOutcome.code .badOp = some 0x1F#8) ∧
  ∀ (s : State) (q : Request) (rest : List Request), s.port.pending = q :: rest →
    (9 ≤ (q.word.extractLsb' 12 4).toNat ∨ q.word.extractLsb' 8 4 ≠ 0#4 ∨
      ((q.word.extractLsb' 12 4).toNat ∈ [0, 1, 3, 5, 6, 7] ∧ q.word.extractLsb' 0 8 ≠ 0#8) ∨
      ((q.word.extractLsb' 12 4).toNat = 8 ∧ 4 < (q.word.extractLsb' 0 8).toNat)) →
    step s = .next { s with port := { pending := rest, outcomes := .badOp :: s.port.outcomes } }

/-- Operations are performed one at a time, in order and whole: a step takes exactly the oldest request and
returns exactly one outcome (R36), and the parameters stay (R8). -/
def Obligations.OperationsCompleteOneAtATimeInOrder : Prop :=
  ∀ (s : State) (q : Request) (rest : List Request), s.port.pending = q :: rest →
    ∃ t o, step s = .next t ∧ t.params = s.params ∧ t.port.pending = rest ∧
      t.port.outcomes = o :: s.port.outcomes

/-- R173: no outcome is fatal and no state is stuck. In every state every one of the nine operations completes,
RX.PUSH on a full buffer with a refusal, and RX.STEP on a full buffer then with something other than
NeedMore. -/
def Obligations.EveryOperationCompletesInEveryState : Prop :=
  (∀ (s : State) (i : Instr), (∀ f, i ≠ .frameV1 f) → (∀ f, i ≠ .frameV2 f) → ∃ t, exec i s = .next t) ∧
  (∀ s : State, maxFrame ≤ s.params.bufCap → s.block.rxbuf.length = s.params.bufCap →
    (∀ b, exec (.rxPush b) s = .next (s.refuse .pushRefused)) ∧
    ∃ t o, exec .rxStep s = .next t ∧ t.port.outcomes = .rx o :: s.port.outcomes ∧ o ≠ .needMore)

/-- The state decides everything: two machines with equal parameters, blocks and pending requests stay so,
and return the same outcomes, whatever they returned before (R23). -/
def Obligations.EqualBlocksBehaveIdentically : Prop :=
  ∀ (n : Nat) (s u : State), s.params = u.params → s.block = u.block →
    s.port.pending = u.port.pending →
    ∃ s' u' os, core.run n s = .next s' ∧ core.run n u = .next u' ∧ s'.params = u'.params ∧
      s'.block = u'.block ∧ s'.port.pending = u'.port.pending ∧
      s'.port.outcomes = os ++ s.port.outcomes ∧ u'.port.outcomes = os ++ u.port.outcomes

/-! ## Reset and the invariant -/

/-- RESET, word 0x0000, always completes; it writes every item of the block and leaves the parameters alone (R150).
That it leaves the pending requests and the outcomes already returned as they are is the model's choice (log entry
19, DEDUCED; log entry 2). -/
def Obligations.ResetWritesEveryItem : Prop :=
  (∀ r : TxOperands, decodeCommand 0x0000#16 r = .ok .reset) ∧
  ∀ s : State, exec .reset s = .next
    { params := s.params
      block := { acc := 0xFFFF#16, seq := 0x00#8, cntUnknown := 0, cntCksum := 0, rxbuf := [] }
      port := { pending := s.port.pending, outcomes := .done :: s.port.outcomes } }

/-- The machine starts in the reset state of R190. The pending list and the outcome list starting empty are
the model's choice (log entry 2), the parameters those of log entries 4 and 5. -/
def Obligations.ResetStateSatisfiesTheInvariant : Prop :=
  State.reset.Inv ∧ State.reset.block =
    { acc := 0xFFFF#16, seq := 0x00#8, cntUnknown := 0, cntCksum := 0, rxbuf := [] }

/-- Every step keeps the invariant: RXBUF never holds more than BUF_CAP bytes, the counters stay within CNT_W
bits, SEED keeps its canonical form, and every frame returned so far is sound (R10, R24, R57). -/
def Obligations.EveryStepKeepsTheInvariant : Prop :=
  ∀ s t : State, s.Inv → step s = .next t → t.Inv

/-- A RESET ends a run and begins the next (R194, with "Run" of 00_scope.md section 6): what happened before it is one
run, with the results it has without the RESET, and the runs after it are those of the reset state, whatever the
block held and the port returned before. -/
def Obligations.RunsEndAtReset : Prop :=
  ∀ (s : State) (before after : List Request) (q : Request), s.port.pending = before ++ q :: after →
    (∀ p ∈ before, p.isReset = false) → q.isReset = true →
    ∃ r, (s.withPending before).runs = [r] ∧
      s.runs = r :: ((State.resetWith s.params).withPending after).runs

/-! ## The checksum -/

/-- R81, on naturals: the byte step with its two 8-bit truncations. -/
def Obligations.ChecksumStepIsTheByteRecipe : Prop :=
  ∀ (a : Word) (b : Byte) (t t' : Nat),
    t = (b.toNat ^^^ a.toNat % 256) % 256 → t' = (t ^^^ (t <<< 4)) % 256 →
    (crcStep a b).toNat = ((a.toNat >>> 8) ^^^ (t' <<< 8) ^^^ (t' <<< 3) ^^^ (t' >>> 4)) % 65536

/-- R82: the byte step equals the bit-serial form with the reflected polynomial. -/
def Obligations.ChecksumStepEqualsBitSerialForm : Prop :=
  ∀ (a : Word) (b : Byte), crcStep a b = crcStepBits a b

/-- R87 (a), (b), (c), (d): linearity, the byte enters through the low accumulator byte, bijective in the
accumulator, injective in the byte. -/
def Obligations.ChecksumStepIsLinearAndInjective : Prop :=
  (∀ (a a' : Word) (b b' : Byte), crcStep (a ^^^ a') (b ^^^ b') = crcStep a b ^^^ crcStep a' b') ∧
  (∀ (a : Word) (b : Byte), crcStep a b = crcStep (a ^^^ b.setWidth 16) 0#8) ∧
  (∀ b : Byte, Function.Bijective fun a => crcStep a b) ∧
  (∀ a : Word, Function.Injective fun b => crcStep a b)

/-- R87 (e): two sequences that differ in exactly one position have different folds from any start, and
different checksums under any seed. -/
def Obligations.OneChangedByteAlwaysChangesTheChecksum : Prop :=
  ∀ (pre post : List Byte) (b b' : Byte), b ≠ b' →
    (∀ a : Word, crcFold a (pre ++ b :: post) ≠ crcFold a (pre ++ b' :: post)) ∧
    (∀ seed : Byte, crc16 (pre ++ b :: post) seed ≠ crc16 (pre ++ b' :: post) seed)

/-- R83: the fold, its two equations and its law for pieces of any size. -/
def Obligations.ChecksumFoldsInPieces : Prop :=
  (∀ a : Word, crcFold a [] = a) ∧
  (∀ (a : Word) (b : Byte) (s : List Byte), crcFold a ([b] ++ s) = crcFold (crcStep a b) s) ∧
  (∀ (a : Word) (s t : List Byte), crcFold a (s ++ t) = crcFold (crcFold a s) t)

/-- R85: there is no final exclusive-or; the fold over "123456789" is 0x6F91. -/
def Obligations.ChecksumCheckValue : Prop :=
  (∀ (s : List Byte) (seed : Byte), crc16 s seed = crcStep (crcFold 0xFFFF#16 s) seed) ∧
  crcFold 0xFFFF#16 [0x31#8, 0x32#8, 0x33#8, 0x34#8, 0x35#8, 0x36#8, 0x37#8, 0x38#8, 0x39#8] = 0x6F91#16

/-- R88, R90: CRC.INIT, word 0x1000, sets ACC to 0xFFFF; CRC.READ, word 0x3000, returns ACC and changes
nothing. Both always complete. -/
def Obligations.ChecksumPortInitialisesAndReads : Prop :=
  (∀ r : TxOperands, decodeCommand 0x1000#16 r = .ok .crcInit ∧ decodeCommand 0x3000#16 r = .ok .crcRead) ∧
  ∀ s : State,
    exec .crcInit s = .next (s.finish { s.block with acc := 0xFFFF#16 } .done) ∧
    exec .crcRead s = .next (s.finish s.block (.value s.block.acc.toNat))

/-- R89: CRC.ACC b, word 0x2000 | b, always completes; it accumulates b into whatever ACC holds, and touches
nothing else. -/
def Obligations.ChecksumPortAccumulates : Prop :=
  (∀ (b : Byte) (r : TxOperands), decodeCommand (0x2000#16 ||| b.setWidth 16) r = .ok (.crcAcc b)) ∧
  ∀ (s : State) (b : Byte),
    exec (.crcAcc b) s = .next (s.finish { s.block with acc := crcStep s.block.acc b } .done)

/-- R91: after CRC.INIT, a CRC.ACC for each byte of `bytes` and one for the seed, ACC is `crc16 bytes seed`,
whatever other operations stand between them, as long as none of those is a checksum-port operation that writes
ACC or a RESET. -/
def Obligations.ChecksumPortSurvivesOtherTraffic : Prop :=
  ∀ (s : State) (bytes : List Byte) (seed : Byte) (reqs rest : List Request),
    s.port.pending = reqs ++ rest →
    reqs.filterMap Request.writesAcc = .crcInit :: bytes.map .crcAcc ++ [.crcAcc seed] →
    ∃ t, core.run reqs.length s = .next t ∧ t.block.acc = crc16 bytes seed ∧ t.port.pending = rest

/-- The pseudo-operation CRC16 of R63, with nothing in between: the CRC.READ returns `crc16 bytes seed`, and
every other item of the block is as before. -/
def Obligations.ChecksumPortComputesTheFrameChecksum : Prop :=
  ∀ (s : State) (bytes : List Byte) (seed : Byte) (rest : List Request),
    s.port.pending = crc16Requests bytes seed ++ rest →
    ∃ t, core.run (bytes.length + 3) s = .next t ∧ t.params = s.params ∧
      t.block = { s.block with acc := crc16 bytes seed } ∧ t.port.pending = rest ∧
      t.port.outcomes =
        .value (crc16 bytes seed).toNat :: List.replicate (bytes.length + 2) .done ++ s.port.outcomes

/-- CRC16 is not atomic (R63): whatever operations that do not write ACC fall between its steps, it returns
`crc16 bytes seed`. The turns are the model's form of the interleaving (log entry 23). -/
def Obligations.InterleavedChecksumExpansionKeepsItsResult : Prop :=
  ∀ (s : State) (bytes : List Byte) (seed : Byte) (turns : List (List Request)),
    turns.length = bytes.length + 3 → (∀ others ∈ turns, ∀ q ∈ others, q.writesAcc = none) →
    ∃ t, (Script.crc16 bytes seed).perform turns s =
        .next ({ tasks := [], kept := [.value (crc16 bytes seed).toNat] }, t) ∧
      t.block.acc = crc16 bytes seed ∧ t.params = s.params ∧ t.port.pending = s.port.pending

/-! ## The receive side -/

/-- R111: RX.PUSH b, word 0x4000 | b, appends its byte at the tail, or is refused with no change when the
buffer is full. -/
def Obligations.RxPushAppendsOrIsRefused : Prop :=
  (∀ (b : Byte) (r : TxOperands), decodeCommand (0x4000#16 ||| b.setWidth 16) r = .ok (.rxPush b)) ∧
  ∀ (s : State) (b : Byte),
    (s.block.rxbuf.length = s.params.bufCap → exec (.rxPush b) s = .next (s.finish s.block .pushRefused)) ∧
    (s.block.rxbuf.length ≠ s.params.bufCap →
      exec (.rxPush b) s = .next (s.finish { s.block with rxbuf := s.block.rxbuf ++ [b] } .pushOk))

/-- R104: a byte at the head that opens no frame is discarded, one per RX.STEP, and nothing else changes; a run
of them takes one step each, and what follows is decoded as if it stood alone. -/
def Obligations.RxStepSkipsANonStartByte : Prop :=
  (∀ (s : State) (b : Byte) (rest : List Byte), s.block.rxbuf = b :: rest → b ≠ 0xFE#8 → b ≠ 0xFD#8 →
    exec .rxStep s = .next (s.finish { s.block with rxbuf := rest } (.rx (.skip b)))) ∧
  (∀ (seed : List Host.Cell) (junk x : List Byte), (∀ b ∈ junk, b ≠ 0xFE#8 ∧ b ≠ 0xFD#8) →
    decodeStream seed (junk ++ x) = junk.map .skip ++ decodeStream seed x)

/-- R105, R106: an empty buffer, an incomplete header and an incomplete frame answer NeedMore and change
nothing. -/
def Obligations.RxStepWaitsForAWholeFrame : Prop :=
  ∀ s : State,
    (s.block.rxbuf = [] ∨
      (∃ rest, s.block.rxbuf = 0xFE#8 :: rest ∧ s.block.rxbuf.length < 6) ∨
      (∃ rest, s.block.rxbuf = 0xFD#8 :: rest ∧ s.block.rxbuf.length < 10) ∨
      (∃ len rest, s.block.rxbuf = 0xFE#8 :: len :: rest ∧ s.block.rxbuf.length < 6 + len.toNat + 2) ∨
      (∃ len rest, s.block.rxbuf = 0xFD#8 :: len :: rest ∧ s.block.rxbuf.length < 10 + len.toNat + 2)) →
    exec .rxStep s = .next (s.finish s.block (.rx .needMore))

/-- R107 to R110, R52 to R56: a complete candidate at the head of RXBUF, its bytes written out field by field
for both versions, is delivered whole if its id is known and its checksum equals, consumed whole and counted if
its id is unknown, and loses one byte and is counted if its checksum differs. -/
def Obligations.RxStepDecidesTheCandidate : Prop :=
  (∀ (s : State) (len sq sys comp id lo hi : Byte) (p x : List Byte), p.length = len.toNat →
    s.block.rxbuf = [0xFE#8, len, sq, sys, comp, id] ++ p ++ [lo, hi] ++ x →
    exec .rxStep s = .next (candidateResult s
      { protocolVersion := .v1, payloadLength := len, sequence := sq, systemId := sys, componentId := comp
        messageId := id.setWidth 24, payload := p, checksum := lo.setWidth 16 ||| (hi.setWidth 16 <<< 8) }
      ([len, sq, sys, comp, id] ++ p)
      ([0xFE#8, len, sq, sys, comp, id] ++ p ++ [lo, hi]) x)) ∧
  (∀ (s : State) (len fl0 fl1 sq sys comp id0 id1 id2 lo hi : Byte) (p x : List Byte),
    p.length = len.toNat →
    s.block.rxbuf = [0xFD#8, len, fl0, fl1, sq, sys, comp, id0, id1, id2] ++ p ++ [lo, hi] ++ x →
    exec .rxStep s = .next (candidateResult s
      { protocolVersion := .v2, payloadLength := len, sequence := sq, systemId := sys, componentId := comp
        messageId := id0.setWidth 24 ||| (id1.setWidth 24 <<< 8) ||| (id2.setWidth 24 <<< 16)
        payload := p, checksum := lo.setWidth 16 ||| (hi.setWidth 16 <<< 8) }
      ([len, fl0, fl1, sq, sys, comp, id0, id1, id2] ++ p)
      ([0xFD#8, len, fl0, fl1, sq, sys, comp, id0, id1, id2] ++ p ++ [lo, hi]) x))

/-- FRAME.V1 and FRAME.V2 complete wherever RXBUF begins with their bytes, with the effect RX.STEP has on that
candidate (R52, R53, R107 to R110). That the wire formats are run as instructions is log entry 7's. -/
def Obligations.WireFrameInstructionsComplete : Prop :=
  (∀ (s : State) (f : FrameV1) (x : List Byte), f.payload.length ≤ 255 →
    s.block.rxbuf = wireV1 f ++ x →
    exec (.frameV1 f) s = .next (candidateResult s (frameOfV1 f)
      ([BitVec.ofNat 8 f.payload.length, f.sequence, f.systemId, f.componentId, f.messageId] ++ f.payload)
      (wireV1 f) x)) ∧
  (∀ (s : State) (f : FrameV2) (x : List Byte), f.payload.length ≤ 255 →
    s.block.rxbuf = wireV2 f ++ x →
    exec (.frameV2 f) s = .next (candidateResult s (frameOfV2 f)
      ([BitVec.ofNat 8 f.payload.length, f.flag0, f.flag1, f.sequence, f.systemId, f.componentId,
        f.messageId.extractLsb' 0 8, f.messageId.extractLsb' 8 8, f.messageId.extractLsb' 16 8] ++ f.payload)
      (wireV2 f) x))

/-- FRAME.V1 and FRAME.V2 where RXBUF does not begin with their bytes: the bytes do not exist (R34) and the
meaning faults. The fault is the model's (log entry 7). -/
def Obligations.WireFrameInstructionsNeedTheirBytes : Prop :=
  (∀ (s : State) (f : FrameV1), ¬ wireV1 f <+: s.block.rxbuf →
    exec (.frameV1 f) s = .fault .candidateNotAtHead) ∧
  (∀ (s : State) (f : FrameV2), ¬ wireV2 f <+: s.block.rxbuf →
    exec (.frameV2 f) s = .fault .candidateNotAtHead)

/-- Every delivered frame was at the head of RXBUF and its checksum is right: RXBUF began with some `w`, which is
the frame `f` byte by byte by R52 and R53 (start byte, length, header fields, payload, checksum low byte first; the
two flag bytes of version 2 are no field of `f`, R56), from which RX.STEP assembles `f` (R55), and the checksum that
`w` carries is the one computed over its region with the id's seed (R24, R54). -/
def Obligations.DeliveredFramesCarryTheirChecksum : Prop :=
  ∀ (s t : State) (f : Frame), exec .rxStep s = .next t →
    t.port.outcomes = .rx (.frame f) :: s.port.outcomes →
    f.payload.length = f.payloadLength.toNat ∧
    ∃ w sd, s.block.rxbuf = w ++ t.block.rxbuf ∧
      (f.protocolVersion = .v1 ∧
        w = [0xFE#8, f.payloadLength, f.sequence, f.systemId, f.componentId, f.messageId.extractLsb' 0 8] ++
          f.payload ++ [f.checksum.extractLsb' 0 8, f.checksum.extractLsb' 8 8] ∨
      f.protocolVersion = .v2 ∧ ∃ fl0 fl1 : Byte,
        w = [0xFD#8, f.payloadLength, fl0, fl1, f.sequence, f.systemId, f.componentId,
            f.messageId.extractLsb' 0 8, f.messageId.extractLsb' 8 8, f.messageId.extractLsb' 16 8] ++
          f.payload ++ [f.checksum.extractLsb' 0 8, f.checksum.extractLsb' 8 8]) ∧
      byteAt w 0 = f.protocolVersion.startByte ∧ assembleFrame f.protocolVersion w = f ∧
      w.length = frameLen f.protocolVersion f.payload.length ∧
      Registry.lookup s.params.seed f.messageId.toNat = some sd ∧
      f.checksum = crc16 ((w.take (w.length - 2)).drop 1) sd

/-- R116: the outcome of RX.STEP and the new RXBUF depend on RXBUF and SEED only; what is left is RXBUF from
index k on, k being 0, 1 or the candidate's length; each counter's change depends on the outcome only; ACC and SEQ
stay. -/
def Obligations.RxStepDependsOnBufferAndSeedOnly : Prop :=
  ∀ (s u : State), s.params.seed = u.params.seed → s.block.rxbuf = u.block.rxbuf →
    ∃ s' u' o k, exec .rxStep s = .next s' ∧ exec .rxStep u = .next u' ∧
      s'.port.outcomes = .rx o :: s.port.outcomes ∧ u'.port.outcomes = .rx o :: u.port.outcomes ∧
      s'.block.rxbuf = s.block.rxbuf.drop k ∧ u'.block.rxbuf = s'.block.rxbuf ∧
      (k = 0 ∨ k = 1 ∨ ∃ v, Version.ofStart (byteAt s.block.rxbuf 0) = some v ∧
        k = frameLen v (byteAt s.block.rxbuf 1).toNat) ∧
      s'.block.cntUnknown =
        (if unknownCount [o] = 1 then (s.block.cntUnknown + 1) % 2 ^ s.params.cntW else s.block.cntUnknown) ∧
      s'.block.cntCksum =
        (if checksumErrorCount [o] = 1 then (s.block.cntCksum + 1) % 2 ^ s.params.cntW else s.block.cntCksum) ∧
      s'.block.acc = s.block.acc ∧ s'.block.seq = s.block.seq

/-- R117: NeedMore changes nothing of the block, and the RX.STEP after it answers NeedMore again. -/
def Obligations.NeedMoreIsIdle : Prop :=
  ∀ s t : State, exec .rxStep s = .next t → t.port.outcomes = .rx .needMore :: s.port.outcomes →
    t.block = s.block ∧ exec .rxStep t = .next (t.finish t.block (.rx .needMore))

/-- R118: every outcome of RX.STEP other than NeedMore removes at least one byte, so RX.DRAIN ends, with RX.STEP
answering NeedMore, after at most RXLEN outcomes. -/
def Obligations.DrainEndsWithNeedMore : Prop :=
  (∀ (s t : State) (o : RxOutcome), exec .rxStep s = .next t →
    t.port.outcomes = .rx o :: s.port.outcomes → o ≠ .needMore →
    t.block.rxbuf.length < s.block.rxbuf.length) ∧
  ∀ (p : Params) (b : Block),
    (b.drain p).2.length ≤ b.rxbuf.length ∧ ((b.drain p).1.rxStep p).2 = .needMore ∧
    RxOutcome.needMore ∉ (b.drain p).2

/-- R119: a decision that is not NeedMore is not changed by bytes that arrive later. -/
def Obligations.DecisionsAreFinal : Prop :=
  ∀ (s u : State) (x : List Byte), u.params = s.params →
    u.block = { s.block with rxbuf := s.block.rxbuf ++ x } →
    ∀ (t : State) (o : RxOutcome), exec .rxStep s = .next t →
      t.port.outcomes = .rx o :: s.port.outcomes → o ≠ .needMore →
      ∃ t', exec .rxStep u = .next t' ∧ t'.port.outcomes = .rx o :: u.port.outcomes ∧
        t'.block = { t.block with rxbuf := t.block.rxbuf ++ x }

/-- A pending list of RX.PUSH and RX.STEP requests is performed as `rxSchedule` says: the block it leaves, and
the outcomes other than NeedMore in order (R36, R38). -/
def Obligations.MachinePerformsReceiveSchedules : Prop :=
  ∀ (s : State) (actions : List RxAction), s.port.pending = actions.map RxAction.request →
    s.port.outcomes = [] →
    ∃ t, core.run actions.length s = .next t ∧ t.params = s.params ∧ t.port.pending = [] ∧
      t.block = (rxSchedule s.params actions s.block).block ∧
      t.receiveOutcomes = (rxSchedule s.params actions s.block).outcomes

/-- R22, R38: RXBUF is a queue. Whatever the schedule, the bytes buffered at its start followed by the bytes
accepted are the bytes that left the head followed by the bytes still buffered: none is lost, repeated or
reordered. -/
def Obligations.BytesLeaveInArrivalOrder : Prop :=
  ∀ (p : Params) (actions : List RxAction) (b : Block), ∃ gone,
    b.rxbuf ++ (rxSchedule p actions b).accepted = gone ++ (rxSchedule p actions b).block.rxbuf

/-- R120: chunk independence. Whatever the schedule of pushes and steps, ended by a drain, the outcomes, the
bytes left and the counters are those of the accepted byte stream decoded in one piece; and what a stream decodes
to is a prefix of what any longer stream decodes to. -/
def Obligations.DecodingIsChunkIndependent : Prop :=
  (∀ (seed : List Host.Cell) (s x : List Byte), decodeStream seed s <+: decodeStream seed (s ++ x)) ∧
  ∀ (p : Params) (actions : List RxAction) (b : Block), b.rxbuf = [] →
    b.cntUnknown < 2 ^ p.cntW → b.cntCksum < 2 ^ p.cntW →
    ∀ (r : RxRun) (d : Block × List RxOutcome), r = rxSchedule p actions b → d = r.block.drain p →
    r.outcomes ++ d.2 = decodeStream p.seed r.accepted ∧
    d.1.rxbuf = streamRest p.seed r.accepted ∧
    d.1.cntUnknown = (b.cntUnknown + unknownCount (decodeStream p.seed r.accepted)) % 2 ^ p.cntW ∧
    d.1.cntCksum = (b.cntCksum + checksumErrorCount (decodeStream p.seed r.accepted)) % 2 ^ p.cntW ∧
    d.1.acc = b.acc ∧ d.1.seq = b.seq

/-- R63, R196: RX.FEED and RX.FEED / k give the outcomes of the stream decoded in one piece, for every legal
BUF_CAP and every chunk size: no byte is lost and the capacity changes no outcome. -/
def Obligations.FeedingIgnoresCapacityAndChunks : Prop :=
  ∀ (p : Params) (b : Block) (bytes : List Byte) (k : Nat), maxFrame ≤ p.bufCap → 1 ≤ k → b.rxbuf = [] →
    (b.feed p bytes).2 = decodeStream p.seed bytes ∧ (b.feed p bytes).1.rxbuf = streamRest p.seed bytes ∧
    (b.feedChunked p k bytes).2 = decodeStream p.seed bytes ∧
    (b.feedChunked p k bytes).1.rxbuf = streamRest p.seed bytes

/-- R195: with BUF_CAP bytes buffered and BUF_CAP at least 267, RX.STEP never answers NeedMore, and the next
RX.PUSH is accepted. -/
def Obligations.FullBufferAlwaysMakesProgress : Prop :=
  ∀ (s t : State) (b : Byte), maxFrame ≤ s.params.bufCap → s.block.rxbuf.length = s.params.bufCap →
    exec .rxStep s = .next t →
    (∃ o, t.port.outcomes = .rx o :: s.port.outcomes ∧ o ≠ .needMore) ∧
    exec (.rxPush b) t = .next (t.finish { t.block with rxbuf := t.block.rxbuf ++ [b] } .pushOk)

/-- RX.DRAIN, RX.FEED and RX.FEED / k are not atomic (R63): whatever operations outside the receive group fall
between the steps of the expansion (R37), it ends after the same number of its own steps with the outcomes, the
RXBUF and the counters it has uninterrupted, and other agents' requests are left pending. The turns are the model's
form of the interleaving (log entry 23). -/
def Obligations.InterleavedReceiveExpansionsKeepTheirResult : Prop :=
  ∀ (s : State) (bytes : List Byte) (k : Nat) (c : Script) (r : Block × List RxOutcome),
    maxFrame ≤ s.params.bufCap → 1 ≤ k →
    (c = Script.drain ∧ r = s.block.drain s.params ∨
      c = Script.feed bytes ∧ r = s.block.feed s.params bytes ∨
      c = Script.feedChunked k bytes ∧ r = s.block.feedChunked s.params k bytes) →
    ∃ n, ∀ turns : List (List Request), turns.length = n →
      (∀ others ∈ turns, ∀ q ∈ others, q.Outside .receive) →
      ∃ t, c.perform turns s = .next ({ tasks := [], kept := r.2.map .rx }, t) ∧ t.params = s.params ∧
        t.port.pending = s.port.pending ∧ t.block.rxbuf = r.1.rxbuf ∧
        t.block.cntUnknown = r.1.cntUnknown ∧ t.block.cntCksum = r.1.cntCksum

/-- A run of pushes and steps from the reset state that ends with RX.STEP answering NeedMore has the receive result
of the accepted stream decoded in one piece, and an empty transmit result (R194, R120). -/
def Obligations.ReceiveResultIsTheDecodedStream : Prop :=
  ∀ (p : Params) (actions : List RxAction) (q : RxRun) (os : List RxOutcome),
    q = rxSchedule p actions Block.reset → os = decodeStream p.seed q.accepted →
    (rxDecide p.seed q.block.rxbuf).outcome = .needMore →
    ∃ r, ((State.resetWith p).withPending (actions.map RxAction.request)).runs = [r] ∧
      r.receiveResult =
        { frames := delivered os, decisions := os, cntUnknown := unknownCount os % 2 ^ p.cntW
          cntCksum := checksumErrorCount os % 2 ^ p.cntW, rxbuf := streamRest p.seed q.accepted } ∧
      r.transmitResult = { frames := [], seq := 0x00#8 }

/-- R121: round trip. Whatever TX.ENCODE returns, standing at the head of RXBUF, is delivered by RX.STEP with
the operands as its fields, whatever follows it. -/
def Obligations.EncodedFramesAreDelivered : Prop :=
  ∀ (s u t : State) (r : TxOperands) (w x : List Byte), exec (.txEncode r) s = .next u →
    u.port.outcomes = .encoded w :: s.port.outcomes → t.params.seed = s.params.seed →
    t.block.rxbuf = w ++ x →
    ∃ v sd, Version.ofNumber r.version = some v ∧ Registry.lookup s.params.seed r.messageId = some sd ∧
      exec .rxStep t = .next (t.finish { t.block with rxbuf := x } (.rx (.frame
        { protocolVersion := v, payloadLength := BitVec.ofNat 8 r.payload.length, sequence := r.sequence
          systemId := r.systemId, componentId := r.componentId
          messageId := BitVec.ofNat 24 r.messageId, payload := r.payload
          checksum := crc16 ((w.take (w.length - 2)).drop 1) sd })))

/-- R122: a byte between two encoded frames. Any byte but the two start bytes is skipped and both frames are
delivered; a start byte holds the second frame back, whatever follows it, until the length its candidate claims
has arrived. -/
def Obligations.ABadByteBetweenTwoFrames : Prop :=
  ∀ (seed : List Host.Cell) (r1 r2 : TxOperands) (w1 w2 : List Byte) (b : Byte),
    encodeFrame seed r1 = .ok w1 → encodeFrame seed r2 = .ok w2 →
    ∃ f1 f2, rxDecide seed w1 = ⟨.frame f1, w1.length⟩ ∧ rxDecide seed w2 = ⟨.frame f2, w2.length⟩ ∧
    (b ≠ 0xFE#8 → b ≠ 0xFD#8 →
      decodeStream seed (w1 ++ [b] ++ w2) = [.frame f1, .skip b, .frame f2] ∧
      streamRest seed (w1 ++ [b] ++ w2) = []) ∧
    (∀ v, Version.ofStart b = some v →
      261 ≤ frameLen v (byteAt w2 0).toNat ∧ frameLen v (byteAt w2 0).toNat ≤ 266 ∧
      ∀ x, 1 + w2.length + x.length < frameLen v (byteAt w2 0).toNat →
        decodeStream seed (w1 ++ [b] ++ w2 ++ x) = [.frame f1] ∧
        streamRest seed (w1 ++ [b] ++ w2 ++ x) = [b] ++ w2 ++ x)

/-- R123, first part: a complete candidate of a known id whose checksum fails, with no start-byte value after
its own start byte, costs one ChecksumError and a Skip for each other byte, and the frame after it is
delivered. -/
def Obligations.ACorruptedFrameCostsOnlyItself : Prop :=
  ∀ (seed : List Host.Cell) (b : Byte) (tail : List Byte) (r : TxOperands) (w : List Byte),
    rxDecide seed (b :: tail) = ⟨.checksumError, 1⟩ →
    (∀ c ∈ tail, c ≠ 0xFE#8 ∧ c ≠ 0xFD#8) → encodeFrame seed r = .ok w →
    ∃ f, rxDecide seed w = ⟨.frame f, w.length⟩ ∧
      decodeStream seed (b :: tail ++ w) = .checksumError :: tail.map .skip ++ [.frame f] ∧
      streamRest seed (b :: tail ++ w) = []

/-! ## The transmit side -/

/-- R131: TX.ENCODE on operands that fit a frame and a known id, the bytes of both versions written out field
by field: header, payload, and the checksum of the written bytes from `payloadLength` on, low byte first. No
state of the block changes (R133). -/
def Obligations.TxEncodeBuildsTheFrame : Prop :=
  (∀ (s : State) (r : TxOperands) (sd : Byte) (c : Word), r.version = 1 → r.messageId ≤ 255 →
    r.payload.length ≤ 255 → Registry.lookup s.params.seed r.messageId = some sd →
    c = crc16 ([BitVec.ofNat 8 r.payload.length, r.sequence, r.systemId, r.componentId,
      BitVec.ofNat 8 r.messageId] ++ r.payload) sd →
    exec (.txEncode r) s = .next (s.finish s.block (.encoded
      ([0xFE#8, BitVec.ofNat 8 r.payload.length, r.sequence, r.systemId, r.componentId,
        BitVec.ofNat 8 r.messageId] ++ r.payload ++
        [BitVec.ofNat 8 c.toNat, BitVec.ofNat 8 (c.toNat / 256)])))) ∧
  (∀ (s : State) (r : TxOperands) (sd : Byte) (c : Word), r.version = 2 → r.messageId ≤ 16777215 →
    r.payload.length ≤ 255 → Registry.lookup s.params.seed r.messageId = some sd →
    c = crc16 ([BitVec.ofNat 8 r.payload.length, 0#8, 0#8, r.sequence, r.systemId, r.componentId,
      BitVec.ofNat 8 r.messageId, BitVec.ofNat 8 (r.messageId / 256), BitVec.ofNat 8 (r.messageId / 65536)]
      ++ r.payload) sd →
    exec (.txEncode r) s = .next (s.finish s.block (.encoded
      ([0xFD#8, BitVec.ofNat 8 r.payload.length, 0#8, 0#8, r.sequence, r.systemId, r.componentId,
        BitVec.ofNat 8 r.messageId, BitVec.ofNat 8 (r.messageId / 256), BitVec.ofNat 8 (r.messageId / 65536)]
        ++ r.payload ++ [BitVec.ofNat 8 c.toNat, BitVec.ofNat 8 (c.toNat / 256)]))))

/-- R132: the four refusals of TX.ENCODE with their codes, each where it is the first test that applies; no
bytes and no state change. -/
def Obligations.TxEncodeRefusesInOrder : Prop :=
  (EncRefusal.code .badVersion = 0x10#8 ∧ EncRefusal.code .badMessageId = 0x11#8 ∧
    EncRefusal.code .payloadTooLong = 0x12#8 ∧ EncRefusal.code .unknownMessage = 0x13#8) ∧
  ∀ (s : State) (r : TxOperands),
    (r.version ≠ 1 → r.version ≠ 2 →
      exec (.txEncode r) s = .next (s.finish s.block (.encRefused .badVersion))) ∧
    (r.version = 1 ∧ 255 < r.messageId ∨ r.version = 2 ∧ 16777215 < r.messageId →
      exec (.txEncode r) s = .next (s.finish s.block (.encRefused .badMessageId))) ∧
    (r.version = 1 ∧ r.messageId ≤ 255 ∨ r.version = 2 ∧ r.messageId ≤ 16777215 →
      255 < r.payload.length →
      exec (.txEncode r) s = .next (s.finish s.block (.encRefused .payloadTooLong))) ∧
    (r.version = 1 ∧ r.messageId ≤ 255 ∨ r.version = 2 ∧ r.messageId ≤ 16777215 →
      r.payload.length ≤ 255 → Registry.lookup s.params.seed r.messageId = none →
      exec (.txEncode r) s = .next (s.finish s.block (.encRefused .unknownMessage)))

/-- R9, R57: a frame TX.ENCODE returns has FRAME_LEN(version, L) bytes, 8 to 263 under version 1 and 12 to 267
under version 2. -/
def Obligations.EncodedFramesHaveTheirLength : Prop :=
  ∀ (seed : List Host.Cell) (r : TxOperands) (w : List Byte), encodeFrame seed r = .ok w →
    (r.version = 1 ∧ w.length = 8 + r.payload.length ∧ w.length ≤ 263) ∨
    (r.version = 2 ∧ w.length = 12 + r.payload.length ∧ w.length ≤ 267)

/-- R137: SEQ.TAKE, word 0x7000, always completes; it returns SEQ and moves it on by one modulo 256, in one
step, and touches nothing else. -/
def Obligations.SeqTakeReturnsThenIncrements : Prop :=
  (∀ r : TxOperands, decodeCommand 0x7000#16 r = .ok .seqTake) ∧
  ∀ s : State, exec .seqTake s = .next (s.finish
    { s.block with seq := BitVec.ofNat 8 ((s.block.seq.toNat + 1) % 256) } (.value s.block.seq.toNat))

/-- R40, R138: `n` SEQ.TAKEs return `n` consecutive values modulo 256, none skipped and none repeated within
256. -/
def Obligations.SequenceValuesAreConsecutive : Prop :=
  ∀ (n : Nat) (s : State) (q : Request) (rest : List Request),
    decodeCommand q.word q.operands = .ok .seqTake → s.port.pending = List.replicate n q ++ rest →
    ∃ t, core.run n s = .next t ∧ t.params = s.params ∧ t.port.pending = rest ∧
      t.block = { s.block with seq := BitVec.ofNat 8 (s.block.seq.toNat + n) } ∧
      t.port.outcomes = ((List.range n).map fun k => .value ((s.block.seq.toNat + k) % 256)).reverse
        ++ s.port.outcomes

/-- R204 (a), R63: TX.SEND is SEQ.TAKE then TX.ENCODE with the value taken, and the value is gone even when the
encode is refused. -/
def Obligations.SendConsumesASequenceValue : Prop :=
  ∀ (s : State) (r : TxOperands), ∃ t u, exec .seqTake s = .next t ∧
    exec (.txEncode { r with sequence := s.block.seq }) t = .next u ∧
    u.block = (s.block.txSend s.params r).1 ∧
    u.port.outcomes = [(s.block.txSend s.params r).2, .value s.block.seq.toNat] ++ s.port.outcomes ∧
    u.block.seq = s.block.seq + 1#8

/-- TX.SEND is not atomic (R63): whatever operations of other agents fall before its SEQ.TAKE and between that and
its TX.ENCODE, other senders' SEQ.TAKEs and RESETs among them, it ends after two steps with TX.ENCODE's outcome for
the value SEQ had when it was taken (R40, R204). The turns are the model's form of the interleaving (log entry
23). -/
def Obligations.InterleavedSendCarriesTheValueItTook : Prop :=
  ∀ (s : State) (r : TxOperands) (before between : List Request), ∃ u t : State,
    core.run before.length (s.withPending (before ++ s.port.pending)) = .next u ∧
    (Script.txSend r).perform [before, between] s =
      .next ({ tasks := [], kept := [txOutcome s.params.seed { r with sequence := u.block.seq }] }, t) ∧
    t.params = s.params ∧ t.port.pending = s.port.pending ∧
    (between = [] → t.block = { u.block with seq := u.block.seq + 1#8 })

/-! ## Registers, counters, outcomes -/

/-- CSR.READ n, word 0x8000 | n, returns the register of R20 or BadOp for n above 4, and changes no state (R152).
That the words 0x8005 to 0x800F decode to CSR.READ, where R61 and R153 call them words of no form, is the model's
choice (log entry 14, DEDUCED). -/
def Obligations.CsrReadReturnsTheRegister : Prop :=
  (∀ (n : BitVec 4) (r : TxOperands), decodeCommand (0x8000#16 ||| n.setWidth 16) r = .ok (.csrRead n)) ∧
  ∀ s : State,
    exec (.csrRead 0#4) s = .next (s.finish s.block (.value s.block.acc.toNat)) ∧
    exec (.csrRead 1#4) s = .next (s.finish s.block (.value s.block.seq.toNat)) ∧
    exec (.csrRead 2#4) s = .next (s.finish s.block (.value s.block.cntUnknown)) ∧
    exec (.csrRead 3#4) s = .next (s.finish s.block (.value s.block.cntCksum)) ∧
    exec (.csrRead 4#4) s = .next (s.finish s.block (.value s.block.rxbuf.length)) ∧
    ∀ n : BitVec 4, 4 < n.toNat → exec (.csrRead n) s = .next (s.finish s.block .badOp)

/-- The counters move by exactly one, modulo 2^CNT_W, with the outcome they count, are cleared by RESET, and are
changed by nothing else (R16, R17, which speak of RX.STEP). That FRAME.V1 and FRAME.V2 count as RX.STEP does is the
model's choice (log entry 7). -/
def Obligations.CountersCountTheirOutcomes : Prop :=
  ∀ (i : Instr) (s t : State) (o : OpOutcome), exec i s = .next t →
    t.port.outcomes = o :: s.port.outcomes →
    (i = .reset → t.block.cntUnknown = 0 ∧ t.block.cntCksum = 0) ∧
    (i ≠ .reset →
      ((∃ f, o = .rx (.unknownMessage f)) →
        t.block.cntUnknown = (s.block.cntUnknown + 1) % 2 ^ s.params.cntW) ∧
      ((¬ ∃ f, o = .rx (.unknownMessage f)) → t.block.cntUnknown = s.block.cntUnknown) ∧
      (o = .rx .checksumError → t.block.cntCksum = (s.block.cntCksum + 1) % 2 ^ s.params.cntW) ∧
      (o ≠ .rx .checksumError → t.block.cntCksum = s.block.cntCksum))

/-- The "written by" column of R10: ACC is written by RESET, CRC.INIT and CRC.ACC alone, SEQ by RESET and
SEQ.TAKE, the counters by RESET and RX.STEP, RXBUF by RESET, RX.PUSH and RX.STEP. FRAME.V1 and FRAME.V2 are
RX.STEP's effect on a candidate (log entry 7). No operation writes a parameter (R8). -/
def Obligations.StateIsWrittenOnlyByItsOperations : Prop :=
  ∀ (i : Instr) (s t : State), exec i s = .next t →
    t.params = s.params ∧
    (t.block.acc ≠ s.block.acc → i = .reset ∨ i = .crcInit ∨ ∃ b, i = .crcAcc b) ∧
    (t.block.seq ≠ s.block.seq → i = .reset ∨ i = .seqTake) ∧
    (t.block.cntUnknown ≠ s.block.cntUnknown ∨ t.block.cntCksum ≠ s.block.cntCksum →
      i = .reset ∨ i = .rxStep ∨ (∃ f, i = .frameV1 f) ∨ ∃ f, i = .frameV2 f) ∧
    (t.block.rxbuf ≠ s.block.rxbuf →
      i = .reset ∨ (∃ b, i = .rxPush b) ∨ i = .rxStep ∨ (∃ f, i = .frameV1 f) ∨ ∃ f, i = .frameV2 f)

/-- R160, R168, R171: every operation ends with exactly one outcome, the parameters and the other requests
stay, and a refusal or an idle outcome changes nothing of the block. -/
def Obligations.RefusalsAndIdleOutcomesChangeNothing : Prop :=
  ∀ (i : Instr) (s t : State), exec i s = .next t →
    t.params = s.params ∧ t.port.pending = s.port.pending ∧
    ∃ o, t.port.outcomes = o :: s.port.outcomes ∧
      (o.kind = .refusal ∨ o.kind = .idle → t.block = s.block)

/-- R37: two operations of different groups commute: performed in either order they return the same outcomes
and leave the same block. -/
def Obligations.OperationsOfDifferentGroupsCommute : Prop :=
  ∀ (i j : Instr) (s t1 t2 : State), opGroup i ≠ opGroup j → opGroup i ≠ .all → opGroup j ≠ .all →
    exec i s = .next t1 → exec j t1 = .next t2 →
    ∃ u1 u2 oi oj, exec j s = .next u1 ∧ exec i u1 = .next u2 ∧ u2.block = t2.block ∧
      t1.port.outcomes = oi :: s.port.outcomes ∧ t2.port.outcomes = oj :: t1.port.outcomes ∧
      u1.port.outcomes = oj :: s.port.outcomes ∧ u2.port.outcomes = oi :: u1.port.outcomes

end
end

