-- ==== Sys2Proof/Laws/State.lean ====
section
/-! SUPPORT. One lemma per field per update of the state, so that no later proof unfolds a record update. -/

namespace Sys2Proof.Machine

/-! ## How an operation ends -/

@[simp] theorem State.finish_params (s : State) (b : Block) (o : OpOutcome) :
    (s.finish b o).params = s.params := rfl

@[simp] theorem State.finish_block (s : State) (b : Block) (o : OpOutcome) :
    (s.finish b o).block = b := rfl

@[simp] theorem State.finish_pending (s : State) (b : Block) (o : OpOutcome) :
    (s.finish b o).port.pending = s.port.pending := rfl

@[simp] theorem State.finish_outcomes (s : State) (b : Block) (o : OpOutcome) :
    (s.finish b o).port.outcomes = o :: s.port.outcomes := rfl

@[simp] theorem State.refuse_params (s : State) (o : OpOutcome) :
    (s.refuse o).params = s.params := rfl

@[simp] theorem State.refuse_block (s : State) (o : OpOutcome) :
    (s.refuse o).block = s.block := rfl

@[simp] theorem State.refuse_pending (s : State) (o : OpOutcome) :
    (s.refuse o).port.pending = s.port.pending := rfl

@[simp] theorem State.refuse_outcomes (s : State) (o : OpOutcome) :
    (s.refuse o).port.outcomes = o :: s.port.outcomes := rfl

/-! ## The port -/

@[simp] theorem State.withPending_params (s : State) (rest : List Request) :
    (s.withPending rest).params = s.params := rfl

@[simp] theorem State.withPending_block (s : State) (rest : List Request) :
    (s.withPending rest).block = s.block := rfl

@[simp] theorem State.withPending_pending (s : State) (rest : List Request) :
    (s.withPending rest).port.pending = rest := rfl

@[simp] theorem State.withPending_outcomes (s : State) (rest : List Request) :
    (s.withPending rest).port.outcomes = s.port.outcomes := rfl

@[simp] theorem State.placeCommand_params (s : State) (w : Word) :
    (s.placeCommand w).params = s.params := rfl

@[simp] theorem State.placeCommand_block (s : State) (w : Word) :
    (s.placeCommand w).block = s.block := rfl

@[simp] theorem State.placeCommand_pending (s : State) (w : Word) :
    (s.placeCommand w).port.pending = Request.ofWord w :: s.port.pending := rfl

@[simp] theorem State.placeCommand_outcomes (s : State) (w : Word) :
    (s.placeCommand w).port.outcomes = s.port.outcomes := rfl

@[simp] theorem State.placeWire_params (s : State) (bytes : List Byte) :
    (s.placeWire bytes).params = s.params := rfl

@[simp] theorem State.placeWire_acc (s : State) (bytes : List Byte) :
    (s.placeWire bytes).block.acc = s.block.acc := rfl

@[simp] theorem State.placeWire_seq (s : State) (bytes : List Byte) :
    (s.placeWire bytes).block.seq = s.block.seq := rfl

@[simp] theorem State.placeWire_cntUnknown (s : State) (bytes : List Byte) :
    (s.placeWire bytes).block.cntUnknown = s.block.cntUnknown := rfl

@[simp] theorem State.placeWire_cntCksum (s : State) (bytes : List Byte) :
    (s.placeWire bytes).block.cntCksum = s.block.cntCksum := rfl

@[simp] theorem State.placeWire_rxbuf (s : State) (bytes : List Byte) :
    (s.placeWire bytes).block.rxbuf = bytes ++ s.block.rxbuf.drop bytes.length := rfl

@[simp] theorem State.placeWire_pending (s : State) (bytes : List Byte) :
    (s.placeWire bytes).port.pending = Request.rxStep :: s.port.pending := rfl

@[simp] theorem State.placeWire_outcomes (s : State) (bytes : List Byte) :
    (s.placeWire bytes).port.outcomes = s.port.outcomes := rfl

/-! ## Reset -/

@[simp] theorem Block.reset_acc : Block.reset.acc = 0xFFFF#16 := rfl

@[simp] theorem Block.reset_seq : Block.reset.seq = 0x00#8 := rfl

@[simp] theorem Block.reset_cntUnknown : Block.reset.cntUnknown = 0 := rfl

@[simp] theorem Block.reset_cntCksum : Block.reset.cntCksum = 0 := rfl

@[simp] theorem Block.reset_rxbuf : Block.reset.rxbuf = [] := rfl

@[simp] theorem State.resetWith_params (p : Params) :
    (State.resetWith p).params = p := rfl

@[simp] theorem State.resetWith_block (p : Params) :
    (State.resetWith p).block = Block.reset := rfl

@[simp] theorem State.resetWith_pending (p : Params) :
    (State.resetWith p).port.pending = [] := rfl

@[simp] theorem State.resetWith_outcomes (p : Params) :
    (State.resetWith p).port.outcomes = [] := rfl

/-! ## The block -/

@[simp] theorem Block.advanceSeq_acc (b : Block) :
    b.advanceSeq.acc = b.acc := rfl

@[simp] theorem Block.advanceSeq_cntUnknown (b : Block) :
    b.advanceSeq.cntUnknown = b.cntUnknown := rfl

@[simp] theorem Block.advanceSeq_cntCksum (b : Block) :
    b.advanceSeq.cntCksum = b.cntCksum := rfl

@[simp] theorem Block.advanceSeq_rxbuf (b : Block) :
    b.advanceSeq.rxbuf = b.rxbuf := rfl

@[simp] theorem Block.advanceSeq_seq (b : Block) :
    b.advanceSeq.seq = b.seq + 1#8 := rfl

/-! A decision carried out: the popped buffer, the two registers it never touches, the counters by outcome. -/

@[simp] theorem Block.applyDecision_acc (w : Nat) (b : Block) (d : RxDecision) :
    (b.applyDecision w d).acc = b.acc := by
  unfold Block.applyDecision; split <;> rfl

@[simp] theorem Block.applyDecision_seq (w : Nat) (b : Block) (d : RxDecision) :
    (b.applyDecision w d).seq = b.seq := by
  unfold Block.applyDecision; split <;> rfl

@[simp] theorem Block.applyDecision_rxbuf (w : Nat) (b : Block) (d : RxDecision) :
    (b.applyDecision w d).rxbuf = b.rxbuf.drop d.consumed := by
  unfold Block.applyDecision; split <;> rfl

theorem Block.applyDecision_needMore (w : Nat) (b : Block) (n : Nat) :
    b.applyDecision w ⟨.needMore, n⟩ = { b with rxbuf := b.rxbuf.drop n } := rfl

theorem Block.applyDecision_skip (w : Nat) (b : Block) (x : Byte) (n : Nat) :
    b.applyDecision w ⟨.skip x, n⟩ = { b with rxbuf := b.rxbuf.drop n } := rfl

theorem Block.applyDecision_frame (w : Nat) (b : Block) (f : Frame) (n : Nat) :
    b.applyDecision w ⟨.frame f, n⟩ = { b with rxbuf := b.rxbuf.drop n } := rfl

theorem Block.applyDecision_unknownMessage (w : Nat) (b : Block) (f : Frame) (n : Nat) :
    b.applyDecision w ⟨.unknownMessage f, n⟩ =
      { b with rxbuf := b.rxbuf.drop n, cntUnknown := (b.cntUnknown + 1) % 2 ^ w } := rfl

theorem Block.applyDecision_checksumError (w : Nat) (b : Block) (n : Nat) :
    b.applyDecision w ⟨.checksumError, n⟩ =
      { b with rxbuf := b.rxbuf.drop n, cntCksum := (b.cntCksum + 1) % 2 ^ w } := rfl

end Sys2Proof.Machine
end

