-- ==== Sys2Proof/Laws/Wire.lean ====
section
/-! SUPPORT. What the wire decoder and encoder do, said once: the cases of `wireHead`, its stability under
later bytes, the fields of the frames. -/

namespace Sys2Proof

/-! ## Bytes at an index -/

@[simp] theorem byteAt_cons_zero (b : Byte) (bs : List Byte) : byteAt (b :: bs) 0 = b := rfl

@[simp] theorem byteAt_cons_succ (b : Byte) (bs : List Byte) (i : Nat) :
    byteAt (b :: bs) (i + 1) = byteAt bs i := rfl

theorem byteAt_append_left (bs x : List Byte) (i : Nat) (h : i < bs.length) :
    byteAt (bs ++ x) i = byteAt bs i := by
  simp [byteAt, List.getElem?_append_left h]

theorem byteAt_append_right (bs x : List Byte) (i : Nat) :
    byteAt (bs ++ x) (bs.length + i) = byteAt x i := by
  simp [byteAt, List.getElem?_append_right]

theorem byteAt_take (bs : List Byte) (i n : Nat) (h : i < n) : byteAt (bs.take n) i = byteAt bs i := by
  simp [byteAt, h]

/-! ## Lengths and start bytes -/

@[simp] theorem Version.hdrLen_v1 : Version.v1.hdrLen = 6 := rfl

@[simp] theorem Version.hdrLen_v2 : Version.v2.hdrLen = 10 := rfl

theorem frameLen_eq (v : Version) (len : Nat) : frameLen v len = v.hdrLen + len + 2 := rfl

theorem Version.hdrLen_ge (v : Version) : 6 ≤ v.hdrLen := by cases v <;> decide

theorem Version.hdrLen_le (v : Version) : v.hdrLen ≤ 10 := by cases v <;> decide

/-- No frame is longer than MAX_FRAME (spec/00_scope.md R9). -/
theorem frameLen_le_maxFrame (v : Version) (b : Byte) : frameLen v b.toNat ≤ maxFrame := by
  have := v.hdrLen_le
  have := b.isLt
  simp only [frameLen_eq, maxFrame]
  omega

@[simp] theorem Version.ofStart_startByte (v : Version) : Version.ofStart v.startByte = some v := by
  cases v <;> decide

theorem Version.startByte_injective {u v : Version} (h : u.startByte = v.startByte) : u = v := by
  cases u <;> cases v <;> first | rfl | exact absurd h (by decide)

theorem Version.ofStart_eq_some {b : Byte} {v : Version} :
    Version.ofStart b = some v ↔ b = v.startByte := by
  constructor
  · intro h
    unfold Version.ofStart at h
    split at h
    · cases h; assumption
    · split at h
      · cases h; assumption
      · cases h
  · rintro rfl; simp

theorem Version.ofStart_eq_none {b : Byte} :
    Version.ofStart b = none ↔ b ≠ 0xFE#8 ∧ b ≠ 0xFD#8 := by
  unfold Version.ofStart
  split
  · simp [*]
  · split <;> simp [*]

/-! ## The cases of `wireHead` -/

theorem wireHead_nil : wireHead [] = .needMore := rfl

theorem wireHead_skip_iff {bs : List Byte} {b : Byte} :
    wireHead bs = .skip b ↔ ∃ rest, bs = b :: rest ∧ Version.ofStart b = none := by
  cases bs with
  | nil => simp [wireHead]
  | cons c rest =>
    simp only [wireHead]
    split
    · next h => simp only [WireHead.skip.injEq, List.cons.injEq]; constructor
                · rintro rfl; exact ⟨rest, ⟨rfl, rfl⟩, h⟩
                · rintro ⟨_, ⟨rfl, -⟩, -⟩; rfl
    · next v h =>
      constructor
      · intro hc; split at hc
        · cases hc
        · split at hc <;> cases hc
      · rintro ⟨_, e, hn⟩; cases e; rw [h] at hn; cases hn

theorem wireHead_candidate_iff {bs : List Byte} {v : Version} {n : Nat} :
    wireHead bs = .candidate v n ↔
      (∃ rest, bs = v.startByte :: rest) ∧ n = frameLen v (byteAt bs 1).toNat ∧ n ≤ bs.length := by
  cases bs with
  | nil => simp [wireHead]
  | cons c rest =>
    simp only [wireHead]
    split
    · next h =>
      constructor
      · intro hc; cases hc
      · rintro ⟨⟨r, e⟩, -, -⟩; cases e; simp at h
    · next u h =>
      obtain rfl := Version.ofStart_eq_some.1 h
      have hl := frameLen_eq u (byteAt (u.startByte :: rest) 1).toNat
      constructor
      · intro hc
        split at hc
        · cases hc
        · split at hc
          · cases hc
          · cases hc; exact ⟨⟨rest, rfl⟩, rfl, by omega⟩
      · rintro ⟨⟨r, e⟩, rfl, hle⟩
        obtain rfl := Version.startByte_injective (List.cons.inj e).1
        rw [if_neg (by omega), if_neg (by omega)]

theorem wireHead_needMore_iff {bs : List Byte} :
    wireHead bs = .needMore ↔
      bs = [] ∨ ∃ v rest, bs = Version.startByte v :: rest ∧
        bs.length < frameLen v (byteAt bs 1).toNat := by
  cases bs with
  | nil => simp [wireHead]
  | cons c rest =>
    simp only [wireHead]
    split
    · next h =>
      constructor
      · intro hc; cases hc
      · rintro (hc | ⟨v, r, e, -⟩)
        · cases hc
        · cases e; simp at h
    · next u h =>
      obtain rfl := Version.ofStart_eq_some.1 h
      have hl := frameLen_eq u (byteAt (u.startByte :: rest) 1).toNat
      constructor
      · intro hc
        right
        refine ⟨u, rest, rfl, ?_⟩
        split at hc
        · omega
        · split at hc
          · assumption
          · cases hc
      · rintro (hc | ⟨v, r, e, hlt⟩)
        · cases hc
        · obtain rfl := Version.startByte_injective (List.cons.inj e).1
          rw [if_pos hlt, ite_self]

/-- A head that is decided is not changed by later bytes (spec/41_rx_decode.md R119). -/
theorem wireHead_append {bs : List Byte} (x : List Byte) (h : wireHead bs ≠ .needMore) :
    wireHead (bs ++ x) = wireHead bs := by
  cases hw : wireHead bs with
  | needMore => exact absurd hw h
  | skip b =>
    obtain ⟨rest, rfl, hn⟩ := wireHead_skip_iff.1 hw
    exact wireHead_skip_iff.2 ⟨rest ++ x, rfl, hn⟩
  | candidate v n =>
    obtain ⟨⟨rest, rfl⟩, rfl, hle⟩ := wireHead_candidate_iff.1 hw
    have h6 := v.hdrLen_ge
    have hlen : 1 < (v.startByte :: rest).length := by
      have := frameLen_eq v (byteAt (v.startByte :: rest) 1).toNat
      omega
    refine wireHead_candidate_iff.2 ⟨⟨rest ++ x, rfl⟩, ?_, ?_⟩
    · rw [byteAt_append_left _ _ _ hlen]
    · rw [List.length_append]; omega

/-! ## Little-endian fields -/

theorem joinChecksum_extract (c : Word) : joinChecksum (c.extractLsb' 0 8) (c.extractLsb' 8 8) = c := by
  apply BitVec.eq_of_getLsbD_eq
  intro i hi
  simp only [joinChecksum, BitVec.getLsbD_append, BitVec.getLsbD_extractLsb']
  split
  · simp [*]
  · have : i - 8 < 8 := by omega
    simp [this, show 8 + (i - 8) = i by omega]

theorem joinMsgId_extract (m : MsgId) :
    joinMsgId (m.extractLsb' 0 8) (m.extractLsb' 8 8) (m.extractLsb' 16 8) = m := by
  apply BitVec.eq_of_getLsbD_eq
  intro i hi
  simp only [joinMsgId, BitVec.getLsbD_append, BitVec.getLsbD_extractLsb']
  split
  · simp [*]
  · split
    · have : i - 8 < 8 := by omega
      simp [this, show 8 + (i - 8) = i by omega]
    · have : i - 8 - 8 < 8 := by omega
      simp [this, show 16 + (i - 8 - 8) = i by omega]

theorem checksumBytes_joinChecksum (lo hi : Byte) : checksumBytes (joinChecksum lo hi) = [lo, hi] := by
  simp only [checksumBytes, List.cons.injEq, and_true]
  constructor <;> apply BitVec.eq_of_getLsbD_eq <;> intro i h <;>
    simp only [joinChecksum, BitVec.getLsbD_extractLsb', BitVec.getLsbD_append, h, decide_true, Bool.true_and]
  · simp [h]
  · simp

theorem msgIdBytes_joinMsgId (b0 b1 b2 : Byte) : msgIdBytes (joinMsgId b0 b1 b2) = [b0, b1, b2] := by
  simp only [msgIdBytes, List.cons.injEq, and_true]
  refine ⟨?_, ?_, ?_⟩ <;> apply BitVec.eq_of_getLsbD_eq <;> intro i h <;>
    simp only [joinMsgId, BitVec.getLsbD_extractLsb', BitVec.getLsbD_append, h, decide_true, Bool.true_and]
  · simp [h]
  · simp [h]
  · simp [show ¬ (16 + i < 8) by omega, show ¬ (16 + i - 8 < 8) by omega,
      show 16 + i - 8 - 8 = i by omega]

/-- The checksum assembled with shifts, as spec/30_encoding.md R55 writes it. -/
theorem joinChecksum_eq_shifts (lo hi : Byte) :
    joinChecksum lo hi = lo.setWidth 16 ||| (hi.setWidth 16 <<< 8) := by
  apply BitVec.eq_of_getLsbD_eq
  intro i h
  simp only [joinChecksum, BitVec.getLsbD_append, BitVec.getLsbD_or, BitVec.getLsbD_setWidth,
    BitVec.getLsbD_shiftLeft, h, decide_true, Bool.true_and]
  by_cases h8 : i < 8
  · simp [h8]
  · simp [h8, BitVec.getLsbD_of_ge lo i (by omega)]; omega

/-- The version 2 message id assembled with shifts, as R55 writes it. -/
theorem joinMsgId_eq_shifts (b0 b1 b2 : Byte) :
    joinMsgId b0 b1 b2 = b0.setWidth 24 ||| (b1.setWidth 24 <<< 8) ||| (b2.setWidth 24 <<< 16) := by
  apply BitVec.eq_of_getLsbD_eq
  intro i h
  simp only [joinMsgId, BitVec.getLsbD_append, BitVec.getLsbD_or, BitVec.getLsbD_setWidth,
    BitVec.getLsbD_shiftLeft, h, decide_true, Bool.true_and]
  by_cases h8 : i < 8
  · simp [h8, show i < 16 by omega]
  · by_cases h16 : i < 16
    · have : i - 8 < 8 := by omega
      simp [h8, h16, this, BitVec.getLsbD_of_ge b0 i (by omega)]; omega
    · have : ¬ (i - 8 < 8) := by omega
      simp [h8, h16, this, BitVec.getLsbD_of_ge b0 i (by omega), BitVec.getLsbD_of_ge b1 (i - 8) (by omega),
        show i - 8 - 8 = i - 16 by omega]
      omega

/-! ## Frames -/

theorem lenByte_toNat {p : List Byte} (h : p.length ≤ 255) : (lenByte p).toNat = p.length := by
  simp [lenByte]; omega

theorem wireV1_length (f : FrameV1) : (wireV1 f).length = frameLen .v1 f.payload.length := by
  simp [wireV1, headerV1, checksumBytes, frameLen_eq]; omega

theorem wireV2_length (f : FrameV2) : (wireV2 f).length = frameLen .v2 f.payload.length := by
  simp [wireV2, headerV2, msgIdBytes, checksumBytes, frameLen_eq]; omega

/-- A payload and the two bytes after it, read out of a frame behind its header. -/
theorem slice_payload (hdr p : List Byte) (lo hi : Byte) (x : List Byte) :
    slice (hdr ++ p ++ [lo, hi] ++ x) hdr.length (hdr.length + p.length) = p := by
  simp [slice, List.append_assoc, List.take_append]

theorem byteAt_lo (hdr p : List Byte) (lo hi : Byte) (x : List Byte) :
    byteAt (hdr ++ p ++ [lo, hi] ++ x) (hdr.length + p.length) = lo := by
  have := byteAt_append_right (hdr ++ p) ([lo, hi] ++ x) 0
  simpa [List.append_assoc] using this

theorem byteAt_hi (hdr p : List Byte) (lo hi : Byte) (x : List Byte) :
    byteAt (hdr ++ p ++ [lo, hi] ++ x) (hdr.length + p.length + 1) = hi := by
  have := byteAt_append_right (hdr ++ p) ([lo, hi] ++ x) 1
  simpa [List.append_assoc] using this

/-- Field assembly of a version 1 frame written out byte by byte (spec/30_encoding.md R52, R55). -/
theorem parseV1_bytes (len sq sys comp id lo hi : Byte) (p x : List Byte) (h : p.length = len.toNat) :
    parseV1 ([0xFE#8, len, sq, sys, comp, id] ++ p ++ [lo, hi] ++ x) =
      { sequence := sq, systemId := sys, componentId := comp, messageId := id, payload := p
        checksum := joinChecksum lo hi } := by
  have hs := slice_payload [0xFE#8, len, sq, sys, comp, id] p lo hi x
  have hlo := byteAt_lo [0xFE#8, len, sq, sys, comp, id] p lo hi x
  have hhi := byteAt_hi [0xFE#8, len, sq, sys, comp, id] p lo hi x
  have hlen : byteAt ([0xFE#8, len, sq, sys, comp, id] ++ p ++ [lo, hi] ++ x) 1 = len := rfl
  simp only [List.length_cons, List.length_nil] at hs hlo hhi
  simp only [parseV1, hlen, ← h, FrameV1.mk.injEq]
  refine ⟨rfl, rfl, rfl, rfl, hs, ?_⟩
  rw [hlo, show 7 + p.length = 0 + 1 + 1 + 1 + 1 + 1 + 1 + p.length + 1 by omega, hhi]

/-- Field assembly of a version 2 frame written out byte by byte (R53, R55). -/
theorem parseV2_bytes (len fl0 fl1 sq sys comp id0 id1 id2 lo hi : Byte) (p x : List Byte)
    (h : p.length = len.toNat) :
    parseV2 ([0xFD#8, len, fl0, fl1, sq, sys, comp, id0, id1, id2] ++ p ++ [lo, hi] ++ x) =
      { flag0 := fl0, flag1 := fl1, sequence := sq, systemId := sys, componentId := comp
        messageId := joinMsgId id0 id1 id2, payload := p, checksum := joinChecksum lo hi } := by
  have hs := slice_payload [0xFD#8, len, fl0, fl1, sq, sys, comp, id0, id1, id2] p lo hi x
  have hlo := byteAt_lo [0xFD#8, len, fl0, fl1, sq, sys, comp, id0, id1, id2] p lo hi x
  have hhi := byteAt_hi [0xFD#8, len, fl0, fl1, sq, sys, comp, id0, id1, id2] p lo hi x
  have hlen : byteAt ([0xFD#8, len, fl0, fl1, sq, sys, comp, id0, id1, id2] ++ p ++ [lo, hi] ++ x) 1 = len :=
    rfl
  simp only [List.length_cons, List.length_nil] at hs hlo hhi
  simp only [parseV2, hlen, ← h, FrameV2.mk.injEq]
  refine ⟨rfl, rfl, rfl, rfl, rfl, rfl, hs, ?_⟩
  rw [hlo, show 11 + p.length = 0 + 1 + 1 + 1 + 1 + 1 + 1 + 1 + 1 + 1 + 1 + p.length + 1 by omega, hhi]

/-- The bytes of a version 1 frame with its fields in place (R52). -/
theorem wireV1_bytes (f : FrameV1) :
    wireV1 f = [0xFE#8, lenByte f.payload, f.sequence, f.systemId, f.componentId, f.messageId] ++ f.payload
      ++ [f.checksum.extractLsb' 0 8, f.checksum.extractLsb' 8 8] := rfl

/-- The bytes of a version 2 frame with its fields in place (R53). -/
theorem wireV2_bytes (f : FrameV2) :
    wireV2 f = [0xFD#8, lenByte f.payload, f.flag0, f.flag1, f.sequence, f.systemId, f.componentId,
      f.messageId.extractLsb' 0 8, f.messageId.extractLsb' 8 8, f.messageId.extractLsb' 16 8] ++ f.payload
      ++ [f.checksum.extractLsb' 0 8, f.checksum.extractLsb' 8 8] := rfl

theorem parseV1_wireV1 (f : FrameV1) (x : List Byte) (h : f.payload.length ≤ 255) :
    parseV1 (wireV1 f ++ x) = f := by
  rw [wireV1_bytes, parseV1_bytes _ _ _ _ _ _ _ _ _ (lenByte_toNat h).symm, joinChecksum_extract]

theorem parseV2_wireV2 (f : FrameV2) (x : List Byte) (h : f.payload.length ≤ 255) :
    parseV2 (wireV2 f ++ x) = f := by
  rw [wireV2_bytes, parseV2_bytes _ _ _ _ _ _ _ _ _ _ _ _ _ (lenByte_toNat h).symm, joinChecksum_extract,
    joinMsgId_extract]

theorem lenByte_eq {p : List Byte} {len : Byte} (h : p.length = len.toNat) : lenByte p = len := by
  apply BitVec.eq_of_toNat_eq
  have := len.isLt
  simp [lenByte, h]

/-- Enough bytes behind a header of `n` payload bytes: the payload, the two checksum bytes, the rest. -/
theorem split_payload (bs : List Byte) (n : Nat) (h : n + 2 ≤ bs.length) :
    ∃ p lo hi x, p.length = n ∧ bs = p ++ [lo, hi] ++ x := by
  have h2 : 2 ≤ (bs.drop n).length := by simp; omega
  match hb : bs.drop n, h2 with
  | lo :: hi :: x, _ =>
    refine ⟨bs.take n, lo, hi, x, by simp; omega, ?_⟩
    have := List.take_append_drop n bs
    rw [hb] at this
    simpa using this.symm

/-- A complete candidate byte by byte: the one inversion later proofs take a candidate apart with. -/
theorem candidate_bytes {bs : List Byte} {v : Version} {n : Nat} (h : wireHead bs = .candidate v n) :
    (v = .v1 ∧ ∃ (len sq sys comp id lo hi : Byte) (p x : List Byte), p.length = len.toNat ∧
      bs = [0xFE#8, len, sq, sys, comp, id] ++ p ++ [lo, hi] ++ x ∧
      n = ([0xFE#8, len, sq, sys, comp, id] ++ p ++ [lo, hi]).length) ∨
    (v = .v2 ∧ ∃ (len fl0 fl1 sq sys comp id0 id1 id2 lo hi : Byte) (p x : List Byte),
      p.length = len.toNat ∧
      bs = [0xFD#8, len, fl0, fl1, sq, sys, comp, id0, id1, id2] ++ p ++ [lo, hi] ++ x ∧
      n = ([0xFD#8, len, fl0, fl1, sq, sys, comp, id0, id1, id2] ++ p ++ [lo, hi]).length) := by
  obtain ⟨⟨rest, hr⟩, hn, hle⟩ := wireHead_candidate_iff.1 h
  cases v with
  | v1 =>
    refine .inl ⟨rfl, ?_⟩
    rw [frameLen_eq, Version.hdrLen_v1] at hn
    match bs, show 6 ≤ bs.length by omega with
    | a :: len :: c :: d :: e :: f :: r, _ =>
      obtain rfl : a = 0xFE#8 := (List.cons.inj hr).1
      simp only [byteAt_cons_succ, byteAt_cons_zero] at hn
      simp only [List.length_cons] at hle
      obtain ⟨p, lo, hi, x, hp, rfl⟩ := split_payload r len.toNat (by omega)
      exact ⟨len, c, d, e, f, lo, hi, p, x, hp, by simp, by simp; omega⟩
  | v2 =>
    refine .inr ⟨rfl, ?_⟩
    rw [frameLen_eq, Version.hdrLen_v2] at hn
    match bs, show 10 ≤ bs.length by omega with
    | a :: len :: c :: d :: e :: f :: g :: i :: j :: k :: r, _ =>
      obtain rfl : a = 0xFD#8 := (List.cons.inj hr).1
      simp only [byteAt_cons_succ, byteAt_cons_zero] at hn
      simp only [List.length_cons] at hle
      obtain ⟨p, lo, hi, x, hp, rfl⟩ := split_payload r len.toNat (by omega)
      exact ⟨len, c, d, e, f, g, i, j, k, lo, hi, p, x, hp, by simp, by simp; omega⟩

/-- The checksum region of a frame with its start byte and its length byte in place: all the header bytes
after the start byte, then the payload (spec/30_encoding.md R54 in `checksumRegion`'s words). -/
theorem slice_region (start len : Byte) (hdr p : List Byte) (lo hi : Byte) :
    slice ((start :: len :: hdr) ++ p ++ [lo, hi]) 1 (hdr.length + 2 + p.length) = (len :: hdr) ++ p := by
  have h : hdr.length + 2 + p.length = ((start :: len :: hdr) ++ p).length := by simp; omega
  rw [slice, h, List.take_left]
  rfl

/-! ## Command words -/

/-- A command word is its three fields (R61). -/
theorem word_fields (w : Word) :
    w = (w.extractLsb' 12 4 ++ w.extractLsb' 8 4 : BitVec 8) ++ w.extractLsb' 0 8 := by
  apply BitVec.eq_of_getLsbD_eq
  intro i hi
  simp only [BitVec.getLsbD_append, BitVec.getLsbD_extractLsb']
  split
  · simp [*]
  · split
    · simp [*, show 8 + (i - 8) = i by omega]
    · simp [show 12 + (i - 8 - 4) = i by omega, show i - 8 - 4 < 4 by omega]

/-- CSR.READ's `arg` is its two halves (R61). -/
theorem arg_fields (w : Word) :
    w.extractLsb' 0 8 = (w.extractLsb' 4 4 ++ w.extractLsb' 0 4 : BitVec 8) := by
  apply BitVec.eq_of_getLsbD_eq
  intro i hi
  simp only [BitVec.getLsbD_append, BitVec.getLsbD_extractLsb']
  split
  · simp [*]
  · simp [show 4 + (i - 4) = i by omega, show i - 4 < 4 by omega]; omega

/-- A written frame is a complete candidate, whatever follows it (R57). -/
theorem wireHead_wireV1 (f : FrameV1) (x : List Byte) (h : f.payload.length ≤ 255) :
    wireHead (wireV1 f ++ x) = .candidate .v1 (wireV1 f).length := by
  have hb : byteAt (wireV1 f ++ x) 1 = lenByte f.payload := rfl
  refine wireHead_candidate_iff.2 ⟨⟨(wireV1 f ++ x).tail, rfl⟩, ?_, by simp⟩
  rw [hb, lenByte_toNat h, wireV1_length]

theorem wireHead_wireV2 (f : FrameV2) (x : List Byte) (h : f.payload.length ≤ 255) :
    wireHead (wireV2 f ++ x) = .candidate .v2 (wireV2 f).length := by
  have hb : byteAt (wireV2 f ++ x) 1 = lenByte f.payload := rfl
  refine wireHead_candidate_iff.2 ⟨⟨(wireV2 f ++ x).tail, rfl⟩, ?_, by simp⟩
  rw [hb, lenByte_toNat h, wireV2_length]

end Sys2Proof
end

