-- ==== Sys2Proof/Laws/Ops.lean ====
section
/-! SUPPORT. What each shared operation can do, said once: the registry and RXBUF keep their forms, the
checksum fold composes, the encoder's cases. -/

namespace Sys2Proof.Machine

/-! ## SEED keeps its canonical form -/

theorem Registry.above_insert {low id : Nat} {b : Byte} {seed : List Host.Cell} (hlow : low < id)
    (h : Registry.above low seed = true) : Registry.above low (Registry.insert id b seed) = true := by
  cases seed with
  | nil => simpa [Registry.insert, Registry.above] using hlow
  | cons c rest =>
    obtain ⟨k, d⟩ := c
    simp only [Registry.above, decide_eq_true_eq] at h
    simp only [Registry.insert]
    split
    · simpa [Registry.above] using hlow
    · split <;> simpa [Registry.above] using h

theorem Registry.wf_insert {id : Nat} {b : Byte} {seed : List Host.Cell} (hid : id ≤ maxMessageId)
    (h : Registry.wf seed = true) : Registry.wf (Registry.insert id b seed) = true := by
  induction seed with
  | nil => simp [Registry.insert, Registry.wf, Registry.above, hid]
  | cons c rest ih =>
    obtain ⟨k, d⟩ := c
    simp only [Registry.wf, Bool.and_eq_true, decide_eq_true_eq] at h
    obtain ⟨⟨hk, ha⟩, hr⟩ := h
    simp only [Registry.insert]
    split
    · next hlt =>
      have ha' : Registry.above id ((k, d) :: rest) = true := by simpa [Registry.above] using hlt
      simp [Registry.wf, ha', hid, hk, ha, hr]
    · split
      · simp [Registry.wf, hk, ha, hr]
      · next h1 h2 =>
        simp [Registry.wf, hk, ih hr, Registry.above_insert (show k < id by omega) ha]

theorem Registry.wf_ofRows (rows : List (Nat × Byte)) : Registry.wf (Registry.ofRows rows) = true := by
  induction rows with
  | nil => rfl
  | cons r rest ih =>
    obtain ⟨id, b⟩ := r
    simp only [Registry.ofRows]
    split
    · exact Registry.wf_insert ‹_› ih
    · exact ih

/-- A descriptor just registered is found, unless its id had one before. -/
theorem Registry.lookup_insert_self {id : Nat} {b : Byte} {seed : List Host.Cell}
    (h : Registry.lookup seed id = none) : Registry.lookup (Registry.insert id b seed) id = some b := by
  induction seed with
  | nil => simp [Registry.insert, Registry.lookup]
  | cons c rest ih =>
    obtain ⟨k, d⟩ := c
    simp only [Registry.lookup] at h
    split at h
    · cases h
    · next hk =>
      simp only [Registry.insert]
      split
      · simp [Registry.lookup]
      · rw [if_neg (Ne.symm hk)]
        simp only [Registry.lookup, if_neg hk]
        exact ih h

/-- Registering one id leaves every other id's entry alone. -/
theorem Registry.lookup_insert_ne {id id' : Nat} {b : Byte} {seed : List Host.Cell} (hne : id ≠ id') :
    Registry.lookup (Registry.insert id b seed) id' = Registry.lookup seed id' := by
  induction seed with
  | nil => simp [Registry.insert, Registry.lookup, hne]
  | cons c rest ih =>
    obtain ⟨k, d⟩ := c
    simp only [Registry.insert]
    split
    · simp [Registry.lookup, hne]
    · split
      · rfl
      · simp only [Registry.lookup, ih]

/-! ## RXBUF keeps its form -/

theorem Memory.wf_iff {cap : Nat} {buf : List Byte} : Memory.wf cap buf = true ↔ buf.length ≤ cap := by
  simp [Memory.wf]

/-- The empty queue of `State.reset` is in form. -/
theorem Memory.wf_nil (cap : Nat) : Memory.wf cap [] = true := by
  simp [Memory.wf]

theorem Memory.wf_append {cap : Nat} {buf : List Byte} {b : Byte} (h : Memory.wf cap buf = true)
    (hne : buf.length ≠ cap) : Memory.wf cap (Memory.append buf b) = true := by
  rw [Memory.wf_iff] at h ⊢
  simp only [Memory.append, List.length_append, List.length_cons, List.length_nil]
  omega

theorem Memory.wf_pop {cap : Nat} {buf : List Byte} {n : Nat} (h : Memory.wf cap buf = true) :
    Memory.wf cap (Memory.pop buf n) = true := by
  rw [Memory.wf_iff] at h ⊢
  simp only [Memory.pop, List.length_drop]
  omega

/-- An append leaves every byte that was there where it was. -/
theorem Memory.readByte_append (buf : List Byte) (b : Byte) (i : Nat) (h : i < buf.length) :
    Memory.readByte (Memory.append buf b) i = Memory.readByte buf i := by
  simp [Memory.readByte, Memory.append, List.getElem?_append_left h]

/-- The byte appended is the new last one. -/
theorem Memory.readByte_append_last (buf : List Byte) (b : Byte) :
    Memory.readByte (Memory.append buf b) buf.length = some b := by
  simp [Memory.readByte, Memory.append]

/-- A pop moves every byte left toward the head, in order. -/
theorem Memory.readByte_pop (buf : List Byte) (n i : Nat) :
    Memory.readByte (Memory.pop buf n) i = Memory.readByte buf (n + i) := by
  simp [Memory.readByte, Memory.pop]

/-- The bytes read at the head are RXBUF's own. -/
theorem Memory.readHead_append (buf x : List Byte) :
    Memory.readHead (buf ++ x) buf.length = buf := by
  simp [Memory.readHead]

/-! ## The checksum fold -/

@[simp] theorem crcFold_nil (a : Word) : crcFold a [] = a := rfl

@[simp] theorem crcFold_cons (a : Word) (b : Byte) (s : List Byte) :
    crcFold a (b :: s) = crcFold (crcStep a b) s := rfl

/-! ## The encode request -/

/-- TX.ENCODE returns a frame exactly when all four tests pass (spec/42_tx_encode.md R131, R132). -/
theorem encodeFrame_ok_iff {seed : List Host.Cell} {r : TxOperands} {w : List Byte} :
    encodeFrame seed r = .ok w ↔
      ∃ v sd, Version.ofNumber r.version = some v ∧ r.messageId ≤ v.maxMessageId ∧
        r.payload.length ≤ 255 ∧ Registry.lookup seed r.messageId = some sd ∧ w = buildFrame v r sd := by
  unfold encodeFrame
  cases hv : Version.ofNumber r.version with
  | none => simp
  | some v =>
    simp only [Option.some.injEq, exists_and_left, exists_eq_left']
    by_cases h1 : v.maxMessageId < r.messageId
    · simp only [if_pos h1]
      constructor
      · intro h; cases h
      · rintro ⟨h, -⟩; omega
    · by_cases h2 : 255 < r.payload.length
      · simp only [if_neg h1, if_pos h2]
        constructor
        · intro h; cases h
        · rintro ⟨-, h, -⟩; omega
      · simp only [if_neg h1, if_neg h2]
        cases hl : Registry.lookup seed r.messageId with
        | none => simp
        | some sd =>
          simp only [Except.ok.injEq, Option.some.injEq, exists_eq_left']
          exact ⟨fun h => ⟨by omega, by omega, h.symm⟩, fun h => h.2.2.symm⟩

/-- The wire frame that TX.ENCODE builds under version 1. -/
def builtV1 (r : TxOperands) (sd : Byte) : FrameV1 :=
  { sequence := r.sequence, systemId := r.systemId, componentId := r.componentId
    messageId := BitVec.ofNat 8 r.messageId, payload := r.payload
    checksum := crc16 ((txHeader .v1 r).drop 1 ++ r.payload) sd }

/-- The wire frame that TX.ENCODE builds under version 2. -/
def builtV2 (r : TxOperands) (sd : Byte) : FrameV2 :=
  { flag0 := 0#8, flag1 := 0#8, sequence := r.sequence, systemId := r.systemId
    componentId := r.componentId, messageId := BitVec.ofNat 24 r.messageId, payload := r.payload
    checksum := crc16 ((txHeader .v2 r).drop 1 ++ r.payload) sd }

theorem buildFrame_v1 (r : TxOperands) (sd : Byte) : buildFrame .v1 r sd = wireV1 (builtV1 r sd) := rfl

theorem buildFrame_v2 (r : TxOperands) (sd : Byte) : buildFrame .v2 r sd = wireV2 (builtV2 r sd) := rfl

theorem buildFrame_length (v : Version) (r : TxOperands) (sd : Byte) :
    (buildFrame v r sd).length = frameLen v r.payload.length := by
  cases v
  · rw [buildFrame_v1, wireV1_length]; rfl
  · rw [buildFrame_v2, wireV2_length]; rfl

end Sys2Proof.Machine
end

