-- ==== Sys2Proof/Laws/PerInstr.lean ====
section
/-! SUPPORT. The one per-instruction family: an instruction's encoding has its opcode-table row's fixed bits
(spec/opcode_table.json; spec/30_encoding.md R64). -/

namespace Sys2Proof.Laws

/-- A row's mask and match: over the command word, or over byte 0 of the candidate for the two wire rows. -/
def rowPattern (i : Instr) : Word × Word :=
  match i with
  | .frameV1 _ => (0x00FF#16, 0x00FE#16)
  | .frameV2 _ => (0x00FF#16, 0x00FD#16)
  | .reset => (0xFFFF#16, 0x0000#16)
  | .crcInit => (0xFFFF#16, 0x1000#16)
  | .crcAcc _ => (0xFF00#16, 0x2000#16)
  | .crcRead => (0xFFFF#16, 0x3000#16)
  | .rxPush _ => (0xFF00#16, 0x4000#16)
  | .rxStep => (0xFFFF#16, 0x5000#16)
  | .txEncode _ => (0xFFFF#16, 0x6000#16)
  | .seqTake => (0xFFFF#16, 0x7000#16)
  | .csrRead _ => (0xFFF0#16, 0x8000#16)

/-- The bits a row's mask and match are applied to. -/
def rowBits (e : Encoded) : Word :=
  match e with
  | .command w _ => w
  | .wire bytes => (byteAt bytes 0).setWidth 16

/-- The instruction's encoding has the fixed bits of its row. -/
def EncodingMatchesRow.Statement (i : Instr) : Prop :=
  rowBits (encode i) &&& (rowPattern i).1 = (rowPattern i).2

theorem EncodingMatchesRow.frameV1 (f : FrameV1) : EncodingMatchesRow.Statement (.frameV1 f) := by
  show (0xFE#8).setWidth 16 &&& 0x00FF#16 = 0x00FE#16
  decide

theorem EncodingMatchesRow.frameV2 (f : FrameV2) : EncodingMatchesRow.Statement (.frameV2 f) := by
  show (0xFD#8).setWidth 16 &&& 0x00FF#16 = 0x00FD#16
  decide

theorem EncodingMatchesRow.reset : EncodingMatchesRow.Statement .reset := by
  show (0x0000#16) &&& 0xFFFF#16 = 0x0000#16
  decide

theorem EncodingMatchesRow.crcInit : EncodingMatchesRow.Statement .crcInit := by
  show (0x1000#16) &&& 0xFFFF#16 = 0x1000#16
  decide

theorem EncodingMatchesRow.crcAcc (b : Byte) : EncodingMatchesRow.Statement (.crcAcc b) := by
  show ((0x20#8 ++ b : Word)) &&& 0xFF00#16 = 0x2000#16
  revert b; decide

theorem EncodingMatchesRow.crcRead : EncodingMatchesRow.Statement .crcRead := by
  show (0x3000#16) &&& 0xFFFF#16 = 0x3000#16
  decide

theorem EncodingMatchesRow.rxPush (b : Byte) : EncodingMatchesRow.Statement (.rxPush b) := by
  show ((0x40#8 ++ b : Word)) &&& 0xFF00#16 = 0x4000#16
  revert b; decide

theorem EncodingMatchesRow.rxStep : EncodingMatchesRow.Statement .rxStep := by
  show (0x5000#16) &&& 0xFFFF#16 = 0x5000#16
  decide

theorem EncodingMatchesRow.txEncode (r : TxOperands) : EncodingMatchesRow.Statement (.txEncode r) := by
  show (0x6000#16) &&& 0xFFFF#16 = 0x6000#16
  decide

theorem EncodingMatchesRow.seqTake : EncodingMatchesRow.Statement .seqTake := by
  show (0x7000#16) &&& 0xFFFF#16 = 0x7000#16
  decide

theorem EncodingMatchesRow.csrRead (n : BitVec 4) : EncodingMatchesRow.Statement (.csrRead n) := by
  show ((0x800#12 ++ n : Word)) &&& 0xFFF0#16 = 0x8000#16
  revert n; decide

end Sys2Proof.Laws
end

