-- ==== Sys2Proof/Laws/Receive.lean ====
section
/-! SUPPORT. What one decision of the receive side can do, said once, and its stability under later bytes. -/

namespace Sys2Proof.Machine

/-! ## Decisions -/

/-- The three ends of a complete candidate (spec/41_rx_decode.md R108 to R110). -/
theorem decideCandidate_cases (seed : List Host.Cell) (v : Version) (bs : List Byte) :
    (Registry.lookup seed (assembleFrame v bs).messageId.toNat = none ∧
      decideCandidate seed v bs = ⟨.unknownMessage (assembleFrame v bs), bs.length⟩) ∨
    (∃ sd, Registry.lookup seed (assembleFrame v bs).messageId.toNat = some sd ∧
      crc16 (checksumRegion v bs) sd ≠ (assembleFrame v bs).checksum ∧
      decideCandidate seed v bs = ⟨.checksumError, 1⟩) ∨
    (∃ sd, Registry.lookup seed (assembleFrame v bs).messageId.toNat = some sd ∧
      crc16 (checksumRegion v bs) sd = (assembleFrame v bs).checksum ∧
      decideCandidate seed v bs = ⟨.frame (assembleFrame v bs), bs.length⟩) := by
  unfold decideCandidate
  cases hl : Registry.lookup seed (assembleFrame v bs).messageId.toNat with
  | none => exact .inl ⟨rfl, by simp only [hl]⟩
  | some sd =>
    by_cases hc : crc16 (checksumRegion v bs) sd = (assembleFrame v bs).checksum
    · exact .inr (.inr ⟨sd, rfl, hc, by simp [hl, hc]⟩)
    · exact .inr (.inl ⟨sd, rfl, hc, by simp [hl, hc]⟩)

theorem rxDecide_of_needMore {seed : List Host.Cell} {buf : List Byte} (h : wireHead buf = .needMore) :
    rxDecide seed buf = ⟨.needMore, 0⟩ := by
  unfold rxDecide; rw [h]

theorem rxDecide_of_skip {seed : List Host.Cell} {buf : List Byte} {b : Byte} (h : wireHead buf = .skip b) :
    rxDecide seed buf = ⟨.skip b, 1⟩ := by
  unfold rxDecide; rw [h]

theorem rxDecide_of_candidate {seed : List Host.Cell} {buf : List Byte} {v : Version} {n : Nat}
    (h : wireHead buf = .candidate v n) : rxDecide seed buf = decideCandidate seed v (buf.take n) := by
  unfold rxDecide; rw [h]; rfl

/-- NeedMore is what an undecided head answers, and nothing else does. -/
theorem rxDecide_needMore_iff {seed : List Host.Cell} {buf : List Byte} :
    (rxDecide seed buf).outcome = .needMore ↔ wireHead buf = .needMore := by
  cases hw : wireHead buf with
  | needMore => simp [rxDecide_of_needMore hw]
  | skip b => simp [rxDecide_of_skip hw]
  | candidate v n =>
    rw [rxDecide_of_candidate hw]
    rcases decideCandidate_cases seed v (buf.take n) with ⟨-, h⟩ | ⟨_, -, -, h⟩ | ⟨_, -, -, h⟩ <;> simp [h]

/-- A decision removes between one byte and the whole buffer (spec/41_rx_decode.md R118). -/
theorem rxDecide_consumed {seed : List Host.Cell} {buf : List Byte} (h : wireHead buf ≠ .needMore) :
    1 ≤ (rxDecide seed buf).consumed ∧ (rxDecide seed buf).consumed ≤ buf.length := by
  cases hw : wireHead buf with
  | needMore => exact absurd hw h
  | skip b =>
    obtain ⟨rest, rfl, -⟩ := wireHead_skip_iff.1 hw
    simp [rxDecide_of_skip hw]
  | candidate v n =>
    obtain ⟨⟨rest, rfl⟩, hn, hle⟩ := wireHead_candidate_iff.1 hw
    have h6 := v.hdrLen_ge
    rw [frameLen_eq] at hn
    rw [rxDecide_of_candidate hw]
    rcases decideCandidate_cases seed v (List.take n (v.startByte :: rest)) with
      ⟨-, h⟩ | ⟨_, -, -, h⟩ | ⟨_, -, -, h⟩ <;> rw [h] <;>
      simp only [List.length_take, List.length_cons] at hle ⊢ <;> omega

/-- A decision is not changed by later bytes (spec/41_rx_decode.md R119). -/
theorem rxDecide_append {seed : List Host.Cell} {buf : List Byte} (x : List Byte)
    (h : wireHead buf ≠ .needMore) : rxDecide seed (buf ++ x) = rxDecide seed buf := by
  have ha := wireHead_append x h
  cases hw : wireHead buf with
  | needMore => exact absurd hw h
  | skip b => rw [hw] at ha; rw [rxDecide_of_skip ha, rxDecide_of_skip hw]
  | candidate v n =>
    rw [hw] at ha
    obtain ⟨-, -, hle⟩ := wireHead_candidate_iff.1 hw
    rw [rxDecide_of_candidate ha, rxDecide_of_candidate hw, List.take_append_of_le_length hle]

/-! ## The laws of `step(buf) = (o, buf')` (spec/41_rx_decode.md R116 to R119) -/

theorem rxBufStep_eq (seed : List Host.Cell) (buf : List Byte) :
    rxBufStep seed buf = ((rxDecide seed buf).outcome, buf.drop (rxDecide seed buf).consumed) := rfl

theorem rxBufStep_ne_needMore {seed : List Host.Cell} {buf buf' : List Byte} {o : RxOutcome}
    (h : rxBufStep seed buf = (o, buf')) (ho : o ≠ .needMore) : wireHead buf ≠ .needMore := by
  obtain ⟨rfl, -⟩ := Prod.mk.inj h
  exact fun hw => ho (rxDecide_needMore_iff.2 hw)

/-- NeedMore is idle (R117). -/
theorem rxBufStep_needMore {seed : List Host.Cell} {buf buf' : List Byte}
    (h : rxBufStep seed buf = (.needMore, buf')) : buf' = buf := by
  obtain ⟨ho, rfl⟩ := Prod.mk.inj h
  rw [rxDecide_of_needMore (rxDecide_needMore_iff.1 ho)]
  rfl

/-- Progress: every other outcome removes at least one byte (R118). -/
theorem rxBufStep_length_lt {seed : List Host.Cell} {buf buf' : List Byte} {o : RxOutcome}
    (h : rxBufStep seed buf = (o, buf')) (ho : o ≠ .needMore) : buf'.length < buf.length := by
  have hc := rxDecide_consumed (seed := seed) (rxBufStep_ne_needMore h ho)
  obtain ⟨-, rfl⟩ := Prod.mk.inj h
  simp only [Memory.pop, List.length_drop]
  omega

/-- Prefix stability: a decision other than NeedMore is not changed by later bytes, which stay behind what it
leaves (R119). -/
theorem rxBufStep_append {seed : List Host.Cell} {buf buf' : List Byte} {o : RxOutcome} (x : List Byte)
    (h : rxBufStep seed buf = (o, buf')) (ho : o ≠ .needMore) :
    rxBufStep seed (buf ++ x) = (o, buf' ++ x) := by
  have hw := rxBufStep_ne_needMore h ho
  have hc := (rxDecide_consumed (seed := seed) hw).2
  obtain ⟨rfl, rfl⟩ := Prod.mk.inj h
  rw [rxBufStep_eq, rxDecide_append x hw, List.drop_append_of_le_length hc]
  rfl

/-! ## Assembled frames -/

theorem slice_length_le (bs : List Byte) (i n : Nat) : (slice bs i (i + n)).length ≤ n := by
  simp [slice]; omega

theorem parseV1_payload_le (bs : List Byte) : (parseV1 bs).payload.length ≤ 255 := by
  have h := slice_length_le bs 6 (byteAt bs 1).toNat
  have := (byteAt bs 1).isLt
  simp only [parseV1]
  omega

theorem parseV2_payload_le (bs : List Byte) : (parseV2 bs).payload.length ≤ 255 := by
  have h := slice_length_le bs 10 (byteAt bs 1).toNat
  have := (byteAt bs 1).isLt
  simp only [parseV2]
  omega

/-! ## RX.STEP and RX.PUSH on the block -/

/-- RX.STEP's outcome and buffer; its counters by `Block.applyDecision`'s own lemmas. -/
@[simp] theorem Block.rxStep_outcome (p : Params) (b : Block) :
    (b.rxStep p).2 = (rxDecide p.seed b.rxbuf).outcome := rfl

@[simp] theorem Block.rxStep_rxbuf (p : Params) (b : Block) :
    (b.rxStep p).1.rxbuf = b.rxbuf.drop (rxDecide p.seed b.rxbuf).consumed := by
  simp [Block.rxStep]

/-- RX.STEP's outcome and the RXBUF it leaves are `step(RXBUF)` (spec/41_rx_decode.md R116). -/
theorem Block.rxStep_rxBufStep (p : Params) (b : Block) :
    ((b.rxStep p).2, (b.rxStep p).1.rxbuf) = rxBufStep p.seed b.rxbuf := by
  rw [Block.rxStep_rxbuf, Block.rxStep_outcome]
  rfl

@[simp] theorem Block.rxStep_acc (p : Params) (b : Block) : (b.rxStep p).1.acc = b.acc := by
  simp [Block.rxStep]

@[simp] theorem Block.rxStep_seq (p : Params) (b : Block) : (b.rxStep p).1.seq = b.seq := by
  simp [Block.rxStep]

/-- An undecided head leaves the block as it is (spec/41_rx_decode.md R117). -/
theorem Block.rxStep_needMore {p : Params} {b : Block} (h : wireHead b.rxbuf = .needMore) :
    b.rxStep p = (b, .needMore) := by
  simp [Block.rxStep, rxDecide_of_needMore h, Block.applyDecision_needMore]

/-- RX.PUSH: one of its two outcomes (spec/41_rx_decode.md R111). -/
theorem Block.push_cases (cap : Nat) (b : Block) (x : Byte) :
    (b.rxbuf.length = cap ∧ b.push cap x = (b, .pushRefused)) ∨
    (b.rxbuf.length ≠ cap ∧ b.push cap x = ({ b with rxbuf := b.rxbuf ++ [x] }, .pushOk)) := by
  by_cases h : b.rxbuf.length = cap
  · exact .inl ⟨h, by simp [Block.push, Block.rxLen, h]⟩
  · exact .inr ⟨h, by simp [Block.push, Block.rxLen, h, Memory.append]⟩

end Sys2Proof.Machine
end

