-- ==== Sys2Proof/Laws/Pseudo.lean ====
section
/-! SUPPORT. One turn of each pseudo-operation, said once, by whether the head of the buffer decides. -/

namespace Sys2Proof.Machine

/-! ## RX.DRAIN -/

@[simp] theorem Block.drainFor_zero (p : Params) (b : Block) : b.drainFor p 0 = (b, []) := rfl

theorem Block.drainFor_needMore {p : Params} {n : Nat} {b : Block} (h : wireHead b.rxbuf = .needMore) :
    b.drainFor p (n + 1) = (b, []) := by
  unfold Block.drainFor
  rw [Block.rxStep_needMore h]
  rfl

theorem Block.drainFor_decided {p : Params} {n : Nat} {b : Block} (h : wireHead b.rxbuf ≠ .needMore) :
    b.drainFor p (n + 1) =
      (((b.rxStep p).1.drainFor p n).1, (b.rxStep p).2 :: ((b.rxStep p).1.drainFor p n).2) :=
  if_neg fun e => h (rxDecide_needMore_iff.1 e)

/-! ## A whole stream -/

@[simp] theorem decodeFor_zero (seed : List Host.Cell) (buf : List Byte) :
    decodeFor seed 0 buf = ([], buf) := rfl

theorem decodeFor_needMore {seed : List Host.Cell} {n : Nat} {buf : List Byte}
    (h : wireHead buf = .needMore) : decodeFor seed (n + 1) buf = ([], buf) :=
  if_pos (rxDecide_needMore_iff.2 h)

theorem decodeFor_decided {seed : List Host.Cell} {n : Nat} {buf : List Byte}
    (h : wireHead buf ≠ .needMore) :
    decodeFor seed (n + 1) buf =
      ((rxDecide seed buf).outcome :: (decodeFor seed n (buf.drop (rxDecide seed buf).consumed)).1,
        (decodeFor seed n (buf.drop (rxDecide seed buf).consumed)).2) :=
  if_neg fun e => h (rxDecide_needMore_iff.1 e)

/-! ## RX.FEED -/

theorem Block.feedByte_room {p : Params} {n : Nat} {x : Byte} {b : Block}
    (h : b.rxbuf.length ≠ p.bufCap) :
    b.feedByte p (n + 1) x = ({ b with rxbuf := b.rxbuf ++ [x] }, []) := by
  have hp : b.push p.bufCap x = ({ b with rxbuf := b.rxbuf ++ [x] }, .pushOk) :=
    (Block.push_cases p.bufCap b x).elim (fun e => absurd e.1 h) fun e => e.2
  unfold Block.feedByte
  rw [hp]
  rfl

theorem Block.feedByte_full {p : Params} {n : Nat} {x : Byte} {b : Block}
    (h : b.rxbuf.length = p.bufCap) :
    b.feedByte p (n + 1) x =
      (((b.rxStep p).1.feedByte p n x).1, (b.rxStep p).2 :: ((b.rxStep p).1.feedByte p n x).2) := by
  have hp : b.push p.bufCap x = (b, .pushRefused) :=
    (Block.push_cases p.bufCap b x).elim (fun e => e.2) fun e => absurd h e.1
  conv_lhs => unfold Block.feedByte
  rw [hp]
  rfl

/-! ## Schedules -/

@[simp] theorem rxSchedule_nil (p : Params) (b : Block) :
    rxSchedule p [] b = { block := b, outcomes := [], accepted := [] } := rfl

theorem rxSchedule_push_room {p : Params} {x : Byte} {rest : List RxAction} {b : Block}
    (h : b.rxbuf.length ≠ p.bufCap) :
    rxSchedule p (.push x :: rest) b =
      { rxSchedule p rest { b with rxbuf := b.rxbuf ++ [x] } with
        accepted := x :: (rxSchedule p rest { b with rxbuf := b.rxbuf ++ [x] }).accepted } := by
  have hp : b.push p.bufCap x = ({ b with rxbuf := b.rxbuf ++ [x] }, .pushOk) :=
    (Block.push_cases p.bufCap b x).elim (fun e => absurd e.1 h) fun e => e.2
  conv_lhs => unfold rxSchedule
  rw [hp]
  rfl

theorem rxSchedule_push_full {p : Params} {x : Byte} {rest : List RxAction} {b : Block}
    (h : b.rxbuf.length = p.bufCap) : rxSchedule p (.push x :: rest) b = rxSchedule p rest b := by
  have hp : b.push p.bufCap x = (b, .pushRefused) :=
    (Block.push_cases p.bufCap b x).elim (fun e => e.2) fun e => absurd h e.1
  conv_lhs => unfold rxSchedule
  rw [hp]
  rfl

theorem rxSchedule_step_needMore {p : Params} {rest : List RxAction} {b : Block}
    (h : wireHead b.rxbuf = .needMore) : rxSchedule p (.step :: rest) b = rxSchedule p rest b := by
  conv_lhs => unfold rxSchedule
  rw [Block.rxStep_needMore h]
  rfl

theorem rxSchedule_step_decided {p : Params} {rest : List RxAction} {b : Block}
    (h : wireHead b.rxbuf ≠ .needMore) :
    rxSchedule p (.step :: rest) b =
      { rxSchedule p rest (b.rxStep p).1 with
        outcomes := (b.rxStep p).2 :: (rxSchedule p rest (b.rxStep p).1).outcomes } := by
  have hne : ¬ (b.rxStep p).2 = .needMore := fun e => h (rxDecide_needMore_iff.1 e)
  conv_lhs => unfold rxSchedule
  exact congrArg (fun o => { rxSchedule p rest (b.rxStep p).1 with outcomes := o }) (if_neg hne)

end Sys2Proof.Machine
end

