-- ==== Sys2Proof/Laws/Script.lean ====
section
/-! SUPPORT. What a script does with each answer, a script over turns, and the results of runs. -/

namespace Sys2Proof.Machine

/-! ## Requests -/

theorem decode_request_txEncode (r : TxOperands) :
    decodeCommand (Request.txEncode r).word (Request.txEncode r).operands = .ok (.txEncode r) := by
  show decodeCommand 0x6000#16 r = _
  rfl

theorem decode_request_seqTake :
    decodeCommand Request.seqTake.word Request.seqTake.operands = .ok .seqTake := by
  show decodeCommand 0x7000#16 .none = _
  rfl

theorem decode_request_rxStep :
    decodeCommand Request.rxStep.word Request.rxStep.operands = .ok .rxStep := by
  show decodeCommand 0x5000#16 .none = _
  rfl

/-! ## One answer -/

@[simp] theorem Script.advance_nil (kept : List OpOutcome) (o : OpOutcome) :
    Script.advance { tasks := [], kept := kept } o = { tasks := [], kept := kept } := rfl

@[simp] theorem Script.advance_issue (q : Request) (rest : List ScriptTask) (kept : List OpOutcome) (o : OpOutcome) :
    Script.advance { tasks := .issue q :: rest, kept := kept } o = { tasks := rest, kept := kept } := by
  simp [Script.advance, ScriptTask.after]

@[simp] theorem Script.advance_keep (q : Request) (rest : List ScriptTask) (kept : List OpOutcome) (o : OpOutcome) :
    Script.advance { tasks := .keep q :: rest, kept := kept } o = { tasks := rest, kept := kept ++ [o] } := rfl

@[simp] theorem Script.advance_drain_needMore (rest : List ScriptTask) (kept : List OpOutcome) :
    Script.advance { tasks := .drain :: rest, kept := kept } (.rx .needMore) =
      { tasks := rest, kept := kept } := by
  simp [Script.advance, ScriptTask.after]

theorem Script.advance_drain {rest : List ScriptTask} {kept : List OpOutcome} {o : RxOutcome} (h : o ≠ .needMore) :
    Script.advance { tasks := .drain :: rest, kept := kept } (.rx o) =
      { tasks := .drain :: rest, kept := kept ++ [.rx o] } := by
  simp [Script.advance, ScriptTask.after, h]

@[simp] theorem Script.advance_push_ok (b : Byte) (rest : List ScriptTask) (kept : List OpOutcome) :
    Script.advance { tasks := .push b :: rest, kept := kept } .pushOk = { tasks := rest, kept := kept } := by
  simp [Script.advance, ScriptTask.after]

@[simp] theorem Script.advance_push_refused (b : Byte) (rest : List ScriptTask) (kept : List OpOutcome) :
    Script.advance { tasks := .push b :: rest, kept := kept } .pushRefused =
      { tasks := .makeRoom b :: rest, kept := kept } := by
  simp [Script.advance, ScriptTask.after]

@[simp] theorem Script.advance_makeRoom (b : Byte) (rest : List ScriptTask) (kept : List OpOutcome) (o : OpOutcome) :
    Script.advance { tasks := .makeRoom b :: rest, kept := kept } o =
      { tasks := .push b :: rest, kept := kept ++ [o] } := rfl

@[simp] theorem Script.advance_send (r : TxOperands) (rest : List ScriptTask) (kept : List OpOutcome) (v : Nat) :
    Script.advance { tasks := .send r :: rest, kept := kept } (.value v) =
      { tasks := .keep (Request.txEncode { r with sequence := BitVec.ofNat 8 v }) :: rest, kept := kept } := by
  simp [Script.advance, ScriptTask.after]

/-! ## Turns -/

/-- A finished script's turn is the other agents' operations alone. -/
theorem Script.turn_finished {others : List Request} {c : Script} {s u : State}
    (hu : core.run others.length (s.withPending (others ++ s.port.pending)) = .next u)
    (hc : c.request = none) : c.turn others s = .next (c, u) := by
  simp only [Script.turn, hu, hc]

/-- A turn is the other agents' operations and then one step on the script's own request, whose outcome the script
goes on with. -/
theorem Script.turn_own {others : List Request} {c : Script} {s u : State} {q : Request} {b : Block}
    {o : OpOutcome} (hu : core.run others.length (s.withPending (others ++ s.port.pending)) = .next u)
    (hc : c.request = some q)
    (hs : step (u.withPending (q :: u.port.pending)) = .next (u.finish b o)) :
    c.turn others s = .next (c.advance o, u.finish b o) := by
  simp only [Script.turn, hu, hc, hs, State.finish_outcomes]

@[simp] theorem Script.perform_nil (c : Script) (s : State) : c.perform [] s = .next (c, s) := rfl

theorem Script.perform_cons {others : List Request} {turns : List (List Request)} {c d : Script} {s t : State}
    (h : c.turn others s = .next (d, t)) : c.perform (others :: turns) s = d.perform turns t := by
  simp only [Script.perform, h]

/-- Turns performed in two portions. -/
theorem Script.perform_append {turns more : List (List Request)} {c d : Script} {s t : State}
    (h : c.perform turns s = .next (d, t)) : c.perform (turns ++ more) s = d.perform more t := by
  induction turns generalizing c s with
  | nil => cases h; rfl
  | cons others rest ih =>
    simp only [Script.perform, List.cons_append] at h ⊢
    split at h
    · cases h
    · cases h
    · exact ih h

/-! ## Results -/

@[simp] theorem rxOutcomes_nil : rxOutcomes [] = [] := rfl

@[simp] theorem rxOutcomes_append (os rest : List OpOutcome) :
    rxOutcomes (os ++ rest) = rxOutcomes os ++ rxOutcomes rest := List.filterMap_append

@[simp] theorem rxOutcomes_needMore (os : List OpOutcome) : rxOutcomes (.rx .needMore :: os) = rxOutcomes os := rfl

theorem rxOutcomes_decided {o : RxOutcome} (h : o ≠ .needMore) (os : List OpOutcome) :
    rxOutcomes (.rx o :: os) = o :: rxOutcomes os := by
  cases o <;> first | exact absurd rfl h | rfl

@[simp] theorem rxOutcomes_pushOk (os : List OpOutcome) : rxOutcomes (.pushOk :: os) = rxOutcomes os := rfl

@[simp] theorem rxOutcomes_pushRefused (os : List OpOutcome) : rxOutcomes (.pushRefused :: os) = rxOutcomes os := rfl

@[simp] theorem continueRun_cons (o : OpOutcome) (r : Run) (rest : List Run) :
    continueRun o (r :: rest) = { r with outcomes := o :: r.outcomes } :: rest := rfl

@[simp] theorem runsFor_zero (s : State) : runsFor 0 s = [{ outcomes := [], final := s.block }] := rfl

/-- A RESET ends the run with the block before it. -/
theorem runsFor_reset {n : Nat} {s t : State} {q : Request} {rest : List Request}
    (hp : s.port.pending = q :: rest) (hs : step s = .next t) (hq : q.isReset = true) :
    runsFor (n + 1) s = { outcomes := [], final := s.block } :: runsFor n t := by
  simp only [runsFor, hp, hs, hq, if_true]

/-- Every other operation's outcome belongs to the run under way. -/
theorem runsFor_other {n : Nat} {s t : State} {q : Request} {rest : List Request} {o : OpOutcome}
    {os : List OpOutcome} (hp : s.port.pending = q :: rest) (hs : step s = .next t)
    (hq : q.isReset = false) (ho : t.port.outcomes = o :: os) :
    runsFor (n + 1) s = continueRun o (runsFor n t) := by
  simp only [runsFor, hp, hs, hq, ho, Bool.false_eq_true, if_false]

end Sys2Proof.Machine
end

