-- ==== Sys2Proof/Laws/Step.lean ====
section
/-! SUPPORT. What a meaning and a step can do, said once. -/

namespace Sys2Proof.Machine

/-- All that the meaning of a wire format can do: RXBUF begins with the frame's bytes, and the state is the one
the decision on them leaves. -/
theorem consumeCandidate_next {v : Version} {bs : List Byte} {s t : State}
    (h : consumeCandidate v bs s = .next t) :
    bs <+: s.block.rxbuf ∧ t = s.finish
      (s.block.applyDecision s.params.cntW (decideCandidate s.params.seed v bs))
      (.rx (decideCandidate s.params.seed v bs).outcome) := by
  unfold consumeCandidate at h
  split at h
  · next hp => cases h; exact ⟨List.isPrefixOf_iff_prefix.1 hp, rfl⟩
  · cases h

/-- Every meaning that answers a next state ends by `State.finish`: it writes the block and returns one
outcome, and leaves the parameters and the other requests alone. -/
theorem exec_finish {i : Instr} {s t : State} (h : exec i s = .next t) :
    ∃ b o, t = s.finish b o := by
  cases i with
  | frameV1 f => exact ⟨_, _, (consumeCandidate_next h).2⟩
  | frameV2 f => exact ⟨_, _, (consumeCandidate_next h).2⟩
  | reset => cases h; exact ⟨_, _, rfl⟩
  | crcInit => cases h; exact ⟨_, _, rfl⟩
  | crcAcc b => cases h; exact ⟨_, _, rfl⟩
  | crcRead => cases h; exact ⟨_, _, rfl⟩
  | rxPush b => cases h; exact ⟨_, _, rfl⟩
  | rxStep => cases h; exact ⟨_, _, rfl⟩
  | txEncode r => cases h; exact ⟨_, _, rfl⟩
  | seqTake => cases h; exact ⟨_, _, rfl⟩
  | csrRead n => cases h; exact ⟨_, _, rfl⟩

/-- The wire formats are no command: a decoded command word names one of the nine operations. -/
theorem decodeCommand_ne_frame {w : Word} {r : TxOperands} {i : Instr} (h : decodeCommand w r = .ok i) :
    (∀ f, i ≠ .frameV1 f) ∧ ∀ f, i ≠ .frameV2 f := by
  unfold decodeCommand at h
  simp only [noArg] at h
  constructor <;> rintro f rfl <;> (repeat' split at h) <;> cases h

/-- The next state of each operation of the nine, whatever the state. -/
theorem exec_operation_next (i : Instr) (s : State) (h1 : ∀ f, i ≠ .frameV1 f) (h2 : ∀ f, i ≠ .frameV2 f) :
    ∃ b o, exec i s = .next (s.finish b o) := by
  cases i with
  | frameV1 f => exact absurd rfl (h1 f)
  | frameV2 f => exact absurd rfl (h2 f)
  | reset => exact ⟨_, _, rfl⟩
  | crcInit => exact ⟨_, _, rfl⟩
  | crcAcc b => exact ⟨_, _, rfl⟩
  | crcRead => exact ⟨_, _, rfl⟩
  | rxPush b => exact ⟨_, _, rfl⟩
  | rxStep => exact ⟨_, _, rfl⟩
  | txEncode r => exact ⟨_, _, rfl⟩
  | seqTake => exact ⟨_, _, rfl⟩
  | csrRead n => exact ⟨_, _, rfl⟩

/-- CSR.READ of a reserved number answers BadOp (spec/43_system.md R152). -/
theorem csrOutcome_reserved (b : Block) {n : BitVec 4} (h : 4 < n.toNat) : csrOutcome b n = .badOp := by
  unfold csrOutcome Block.register
  have := n.isLt
  split
  · next hr => split at hr <;> first | omega | cases hr
  · rfl

/-- The words of the pseudo-operations' requests decode to the operations they stand for. -/
theorem decode_request_crcAcc (b : Byte) (r : TxOperands) :
    decodeCommand (Request.crcAcc b).word r = .ok (.crcAcc b) := by
  have hf : ∀ b : Byte, (Request.crcAcc b).word.extractLsb' 8 4 = 0#4 ∧
      ((Request.crcAcc b).word.extractLsb' 12 4).toNat = 2 ∧
      (Request.crcAcc b).word.extractLsb' 0 8 = b := by decide
  obtain ⟨h1, h2, h3⟩ := hf b
  simp [decodeCommand, h1, h2, h3]

theorem decode_request_rxPush (b : Byte) (r : TxOperands) :
    decodeCommand (Request.rxPush b).word r = .ok (.rxPush b) := by
  have hf : ∀ b : Byte, (Request.rxPush b).word.extractLsb' 8 4 = 0#4 ∧
      ((Request.rxPush b).word.extractLsb' 12 4).toNat = 4 ∧
      (Request.rxPush b).word.extractLsb' 0 8 = b := by decide
  obtain ⟨h1, h2, h3⟩ := hf b
  simp [decodeCommand, h1, h2, h3]

/-- What the fetch answers, by the pending list and the decoder. -/
theorem fetch_nil {s : State} (h : s.port.pending = []) : s.fetch = .idle := by
  unfold State.fetch; rw [h]

theorem fetch_ok {s : State} {q : Request} {rest : List Request} {i : Instr}
    (h : s.port.pending = q :: rest) (hd : decodeCommand q.word q.operands = .ok i) :
    s.fetch = .run i (s.withPending rest) := by
  unfold State.fetch; rw [h]; simp only [hd]

theorem fetch_error {s : State} {q : Request} {rest : List Request} {e : DecodeError}
    (h : s.port.pending = q :: rest) (hd : decodeCommand q.word q.operands = .error e) :
    s.fetch = .rejected ((s.withPending rest).refuse .badOp) := by
  unfold State.fetch; rw [h]; simp only [hd]

/-- The first of `n + 1` steps. -/
theorem core_run_succ {s t : State} (n : Nat) (h : step s = .next t) :
    core.run (n + 1) s = core.run n t := by
  have hc : core.step s = .next t := h
  simp only [Host.Core.run, hc]

end Sys2Proof.Machine
end

