-- ==== Sys2Proof/Tests/Slice0.lean ====
section
/-! SUPPORT. Tests with the values of spec/95_test_vectors.md and of the rules' own examples, and for every
statement with hypotheses a witness that meets them. -/

namespace Sys2Proof.Tests

open Machine

/-! ## Helpers -/

/-- Bytes from numerals. -/
def bs (ns : List Nat) : List Byte := ns.map (BitVec.ofNat 8)

/-- The example registry of spec/95_test_vectors.md section 1, the default capacity and counter width. -/
def params : Params :=
  { seed := [(0, 0x32#8), (33, 0x68#8), (74, 0x14#8), (76, 0x98#8)], bufCap := 512, cntW := 32 }

/-- The smallest capacity R8 allows and 8-bit counters (vectors Y8, Y9). -/
def small : Params := { params with bufCap := 267, cntW := 8 }

/-- A registry with ids at the ends of both id fields. -/
def ends : Params := { params with seed := [(255, 0x11#8), (16777215, 0x22#8)] }

/-- The reset state with the given bytes buffered. -/
def buffered (p : Params) (ns : List Nat) : State :=
  { State.resetWith p with block := { Block.reset with rxbuf := bs ns } }

/-- The reset state with the given words pending. -/
def issued (p : Params) (ws : List Nat) : State :=
  (State.resetWith p).withPending (ws.map fun w => Request.ofWord (BitVec.ofNat 16 w))

/-- The next state, if there is one. -/
def nextOf (o : Host.Outcome State Fault Refusal) : Option State :=
  match o with
  | .next s => some s
  | .fault _ => none
  | .refused _ => none

theorem eq_next {o : Host.Outcome State Fault Refusal} {t : State} (h : nextOf o = some t) : o = .next t := by
  cases o with
  | next s => exact congrArg _ (Option.some.inj h)
  | fault r => cases h
  | refused r => cases h

/-- The block after, if there is a next state. -/
def blockOf (o : Host.Outcome State Fault Refusal) : Option Block := (nextOf o).map State.block

/-- The outcome returned last. -/
def outcomeOf (o : Host.Outcome State Fault Refusal) : Option OpOutcome :=
  (nextOf o).bind fun s => s.port.outcomes.head?

/-- TX.ENCODE's operands. -/
def tx (version messageId sys comp : Nat) (payload : List Nat) (sequence : Nat) : TxOperands :=
  { version := version, messageId := messageId, systemId := BitVec.ofNat 8 sys
    componentId := BitVec.ofNat 8 comp, payload := bs payload, sequence := BitVec.ofNat 8 sequence }

/-- A `Frame`. -/
def frame (v : Version) (len seq sys comp id : Nat) (payload : List Nat) (ck : Nat) : Frame :=
  { protocolVersion := v, payloadLength := BitVec.ofNat 8 len, sequence := BitVec.ofNat 8 seq
    systemId := BitVec.ofNat 8 sys, componentId := BitVec.ofNat 8 comp, messageId := BitVec.ofNat 24 id
    payload := bs payload, checksum := BitVec.ofNat 16 ck }

/-- The payload of vectors E1 and E2. -/
def heart : List Nat := [0, 0, 0, 0, 2, 3, 0x51, 4, 3]

/-- Vectors E1, E2, E3, E4 of spec/95_test_vectors.md section 4. -/
def e1 : List Nat := [0xFE, 9, 0, 1, 1, 0] ++ heart ++ [0x7D, 0xDD]
def e2 : List Nat := [0xFD, 9, 0, 0, 0, 1, 1, 0, 0, 0] ++ heart ++ [0xE7, 0x1E]
def e3 : List Nat := [0xFE, 0, 0, 1, 1, 0, 0x86, 0x5C]
def e4 : List Nat := [0xFD, 0, 0, 0, 0, 1, 1, 0, 0, 0, 0x79, 0x81]

/-- Wire terms with a payload of `n` zeros. -/
def v1 (n : Nat) : FrameV1 :=
  { sequence := 1#8, systemId := 2#8, componentId := 3#8, messageId := 4#8
    payload := List.replicate n 0#8, checksum := 0x1234#16 }
def v2 (n : Nat) : FrameV2 :=
  { flag0 := 1#8, flag1 := 2#8, sequence := 3#8, systemId := 4#8, componentId := 5#8
    messageId := 0x012345#24, payload := List.replicate n 0#8, checksum := 0x1234#16 }

/-! ## WellFormed -/

theorem test_wellformed_refuses_v1_payload_256 : WellFormed (.frameV1 (v1 256)) = false := by decide +kernel
theorem test_wellformed_refuses_v2_payload_256 : WellFormed (.frameV2 (v2 256)) = false := by decide +kernel
theorem test_wellformed_accepts_payload_255 :
    WellFormed (.frameV1 (v1 255)) = true ∧ WellFormed (.frameV2 (v2 255)) = true := by decide +kernel

/-! ## Decoding: the words of spec/30_encoding.md R61, the layouts of R52 and R53 -/

theorem test_decode_commands :
    ([0x0000, 0x1000, 0x2032, 0x3000, 0x40FE, 0x5000, 0x6000, 0x7000, 0x8003].map fun w =>
      decodeTableWord 16 w) =
    [some .reset, some .crcInit, some (.crcAcc 0x32#8), some .crcRead, some (.rxPush 0xFE#8), some .rxStep,
      some (.txEncode .none), some .seqTake, some (.csrRead 3#4)] := by decide

/-- Vector Y6, the words that no row matches (0x800F is CSR.READ of a reserved number). -/
theorem test_decode_refuses :
    ([0x9000, 0xF0FF, 0x0100, 0x1001, 0x3080, 0x5001, 0x6001, 0x7001, 0x8010].map fun w =>
      decodeTableWord 16 w) = List.replicate 9 none := by decide

theorem test_decode_refuses_by_name :
    decodeCommand 0x9000#16 .none = .error .reservedOp ∧
    decodeCommand 0x0100#16 .none = .error .reservedBits ∧
    decodeCommand 0x1001#16 .none = .error .argNotZero ∧
    decodeWire (bs [0x55]) = .error .notStartByte ∧ decodeWire (bs [0xFE, 0]) = .error .incomplete := by
  decide

/-- R52 byte by byte, and one byte more that stays. -/
theorem test_decode_v1 :
    decodeWire (bs [0xFE, 2, 9, 8, 7, 6, 0xAA, 0xBB, 0x34, 0x12, 0x55]) =
      .ok (.frameV1 { sequence := 9#8, systemId := 8#8, componentId := 7#8, messageId := 6#8
                      payload := [0xAA#8, 0xBB#8], checksum := 0x1234#16 }, [0x55#8]) := by decide

/-- R53 byte by byte: the id's bytes are 45 23 01 (vector E12). -/
theorem test_decode_v2 :
    decodeWire (bs [0xFD, 1, 0xF0, 0xF1, 5, 9, 8, 0x45, 0x23, 0x01, 0xAA, 0x34, 0x12]) =
      .ok (.frameV2 { flag0 := 0xF0#8, flag1 := 0xF1#8, sequence := 5#8, systemId := 9#8
                      componentId := 8#8, messageId := 0x012345#24, payload := [0xAA#8]
                      checksum := 0x1234#16 }, []) := by decide

/-- The wire rows of the table with every other bit 0. -/
theorem test_decode_table_wire :
    (decodeTableWord 8 0xFE).map encode = some (.wire (bs [0xFE, 0, 0, 0, 0, 0, 0, 0])) ∧
    (decodeTableWord 8 0xFD).map encode = some (.wire (bs [0xFD, 0, 0, 0, 0, 0, 0, 0, 0, 0, 0, 0])) := by
  decide +kernel

theorem test_encode_v2 :
    encode (.frameV2 (v2 1)) =
      .wire (bs [0xFD, 1, 1, 2, 3, 4, 5, 0x45, 0x23, 0x01, 0, 0x34, 0x12]) := by decide

/-- A table row's word is what the next step runs, from the reset state itself. -/
theorem test_fetch_word :
    outcomeOf (step (State.reset.withFetchWord 16 0x7000)) = some (.value 0) ∧
    blockOf (step (State.reset.withFetchWord 16 0x2032)) = some { Block.reset with acc := 0x1D16#16 } := by
  decide

/-- The wire row's word reaches RX.STEP as a candidate: its checksum bytes are 0, its region's checksum under
seed 0x32 is not, so one byte is dropped (R109). -/
theorem test_fetch_wire :
    outcomeOf (step ((State.resetWith params).withFetchWord 8 0xFE)) = some (.rx .checksumError) := by decide +kernel

/-! ## The checksum: spec/95_test_vectors.md section 3 -/

/-- K1 to K15. -/
theorem test_crc_steps :
    ([(0xFFFF, 0x00), (0xFFFF, 0x01), (0xFFFF, 0xFF), (0xFFFF, 0x32), (0xFFFF, 0xFE), (0xFFFF, 0xFD),
      (0x0000, 0x00), (0x0000, 0x01), (0x0000, 0x80), (0x1234, 0x56), (0x00FF, 0xFF), (0xF0B8, 0x00),
      (0x8000, 0x00), (0x0001, 0x00), (0xABCD, 0xEF)].map fun x : Nat × Nat =>
        (crcStep (BitVec.ofNat 16 x.1) (BitVec.ofNat 8 x.2)).toNat) =
    [0x0F87, 0x1E0E, 0x00FF, 0x1D16, 0x1176, 0x23ED, 0x0000, 0x1189, 0x8408, 0x4006, 0x0000, 0x3933,
      0x0080, 0x1189, 0x02BB] := by decide

/-- K19, K20, K22, K23, K24. -/
theorem test_crc16 :
    crc16 (bs [0x31, 0x32, 0x33, 0x34, 0x35, 0x36, 0x37, 0x38, 0x39]) 0x00#8 = 0x856F#16 ∧
    crc16 [] 0x32#8 = 0x1D16#16 ∧ crc16 (bs ([9, 0, 1, 1, 0] ++ heart)) 0x32#8 = 0xDD7D#16 ∧
    crc16 (bs [0xFF, 0xFF, 0xFF, 0xFF]) 0xFF#8 = 0x364B#16 ∧
    crc16 (bs [0, 0, 1, 1, 0]) 0x98#8 = 0x56D6#16 := by decide

/-- Section 3.3: CRC.INIT after an earlier user, CRC.ACC without it, CRC.READ. -/
theorem test_crc_port :
    blockOf (exec .crcInit { State.resetWith params with block := { Block.reset with acc := 0x1234#16 } }) =
      some Block.reset ∧
    blockOf (exec (.crcAcc 0x56#8)
      { State.resetWith params with block := { Block.reset with acc := 0x1234#16 } }) =
      some { Block.reset with acc := 0x4006#16 } ∧
    outcomeOf (exec .crcRead (State.resetWith params)) = some (.value 0xFFFF) := by decide

/-! ## Receiving: spec/95_test_vectors.md section 5 -/

/-- D1 and D3. -/
theorem test_rx_frame_v1 :
    outcomeOf (exec .rxStep (buffered params (e1 ++ [0x55]))) =
      some (.rx (.frame (frame .v1 9 0 1 1 0 heart 0xDD7D))) ∧
    blockOf (exec .rxStep (buffered params (e1 ++ [0x55]))) =
      some { Block.reset with rxbuf := [0x55#8] } := by decide

/-- D11: flag bytes are checksummed, accepted and not delivered. -/
theorem test_rx_frame_v2_flags :
    outcomeOf (exec .rxStep (buffered params
      ([0xFD, 9, 1, 2, 0, 1, 1, 0, 0, 0] ++ heart ++ [0x1E, 0xC6]))) =
      some (.rx (.frame (frame .v2 9 0 1 1 0 heart 0xC61E))) := by decide

/-- D5: one byte dropped, counted once. -/
theorem test_rx_checksum_error :
    outcomeOf (exec .rxStep (buffered params [0xFE, 0, 0, 1, 1, 0, 0x87, 0x5C])) =
      some (.rx .checksumError) ∧
    blockOf (exec .rxStep (buffered params [0xFE, 0, 0, 1, 1, 0, 0x87, 0x5C])) =
      some { Block.reset with cntCksum := 1, rxbuf := bs [0, 0, 1, 1, 0, 0x87, 0x5C] } := by decide

/-- D6: the whole candidate consumed, unverified. -/
theorem test_rx_unknown :
    outcomeOf (exec .rxStep (buffered params ([0xFE, 2, 9, 1, 1, 1, 0xAA, 0xBB, 0x12, 0x34] ++ e3))) =
      some (.rx (.unknownMessage (frame .v1 2 9 1 1 1 [0xAA, 0xBB] 0x3412))) ∧
    blockOf (exec .rxStep (buffered params ([0xFE, 2, 9, 1, 1, 1, 0xAA, 0xBB, 0x12, 0x34] ++ e3))) =
      some { Block.reset with cntUnknown := 1, rxbuf := bs e3 } := by decide

/-- D8: 5 and 16 bytes of E1; D12: 9 and 12 bytes of E2. -/
theorem test_rx_need_more :
    ([e1.take 5, e1.take 16, e2.take 9, e2.take 12].map fun b =>
      outcomeOf (exec .rxStep (buffered params b))) = List.replicate 4 (some (.rx .needMore)) := by decide

/-- Y8: the counter wraps at 2^CNT_W. -/
theorem test_rx_counter_wraps :
    blockOf (exec .rxStep
      { buffered small [0xFE, 0, 0, 1, 1, 0, 0x87, 0x5C] with
        block := { Block.reset with cntCksum := 255, rxbuf := bs [0xFE, 0, 0, 1, 1, 0, 0x87, 0x5C] } }) =
      some { Block.reset with rxbuf := bs [0, 0, 1, 1, 0, 0x87, 0x5C] } := by decide

/-- D4 and D7, by the drain of R63. -/
theorem test_rx_drain :
    decodeStream params.seed (bs (e1 ++ [0x55] ++ e3)) =
      [.frame (frame .v1 9 0 1 1 0 heart 0xDD7D), .skip 0x55#8, .frame (frame .v1 0 0 1 1 0 [] 0x5C86)] ∧
    decodeStream params.seed (bs (e1 ++ [0xFE] ++ e3)) =
      [.frame (frame .v1 9 0 1 1 0 heart 0xDD7D)] ∧
    streamRest params.seed (bs (e1 ++ [0xFE] ++ e3)) = bs (0xFE :: e3) := by decide

/-- Y9 and the example of R111. -/
theorem test_rx_push :
    outcomeOf (exec (.rxPush 0x00#8) (buffered small (List.replicate 267 0))) = some .pushRefused ∧
    blockOf (exec (.rxPush 0x09#8) (buffered small [0xFE])) =
      some { Block.reset with rxbuf := bs [0xFE, 0x09] } := by decide +kernel

/-- FRAME.V1 on D1's bytes, FRAME.V2 on E4's. -/
theorem test_frame_v1 :
    outcomeOf (exec (.frameV1 (parseV1 (bs e1))) (buffered params e1)) =
      some (.rx (.frame (frame .v1 9 0 1 1 0 heart 0xDD7D))) := by decide
theorem test_frame_v2 :
    outcomeOf (exec (.frameV2 (parseV2 (bs e4))) (buffered params e4)) =
      some (.rx (.frame (frame .v2 0 0 1 1 0 [] 0x8179))) := by decide

/-! ## Expansions among other traffic, and runs -/

/-- What a script ended with. -/
def scriptOf (o : Host.Outcome (Script × State) Fault Refusal) : Option Script :=
  match o with
  | .next c => some c.1
  | .fault _ => none
  | .refused _ => none

/-- Requests from words. -/
def reqs (ws : List Nat) : List Request := ws.map fun w => Request.ofWord (BitVec.ofNat 16 w)

/-- Program P7: agent A's CRC16 of one byte 00 with seed 00, agent B's CRC.INIT and CRC.ACC 0x32 between its
operations: A reads 0x75AA. -/
theorem test_script_crc_interleaved :
    scriptOf ((Script.crc16 [0#8] 0#8).perform [[], [], reqs [0x1000, 0x2032], []] (State.resetWith params)) =
      some { tasks := [], kept := [.value 0x75AA] } := by decide

/-- Program P6: B takes 1 between A's SEQ.TAKE and A's TX.ENCODE; A's frame still carries 0. -/
theorem test_script_send_interleaved :
    scriptOf ((Script.txSend (tx 1 0 1 1 [] 9)).perform [[], reqs [0x7000]] (State.resetWith params)) =
      some { tasks := [], kept := [.encoded (bs e3)] } := by decide

/-- Bytes another agent pushes between the steps of a drain are seen by it: the rest of E3 arrives after the first
step, and the drain delivers the frame. -/
theorem test_script_drain_interleaved :
    scriptOf (Script.drain.perform [[], reqs [0x4086, 0x405C], []] (buffered params (0x55 :: e3.take 6))) =
      some { tasks := [], kept := [.rx (.skip 0x55#8), .rx (.frame (frame .v1 0 0 1 1 0 [] 0x5C86))] } := by
  decide

/-- Two runs with a RESET (0x0000) between them: a Skip and a SEQ.TAKE, then an RX.PUSH. -/
theorem test_runs :
    ({ buffered params [0x55] with
        port := { pending := reqs [0x5000, 0x7000, 0x0000, 0x40FE], outcomes := [.done] } } : State).runs =
      [{ outcomes := [.rx (.skip 0x55#8), .value 0], final := { Block.reset with seq := 1#8 } },
        { outcomes := [.pushOk], final := { Block.reset with rxbuf := [0xFE#8] } }] := by decide

/-! ## Sending: spec/95_test_vectors.md sections 4 and 7 -/

/-- E1, E2, E9. -/
theorem test_tx_frames :
    encodeFrame params.seed (tx 1 0 1 1 heart 0) = .ok (bs e1) ∧
    encodeFrame params.seed (tx 2 0 1 1 heart 0) = .ok (bs e2) ∧
    encodeFrame params.seed (tx 1 0 1 1 [0xFE, 0xFD, 0xFE, 0, 0, 0, 0, 0, 0] 2) =
      .ok (bs [0xFE, 9, 2, 1, 1, 0, 0xFE, 0xFD, 0xFE, 0, 0, 0, 0, 0, 0, 0x5B, 0xED]) := by decide

/-- E6a, E6b, E6c, E6d, E6e, E6f, E6g, E6h, E6i, E6j. -/
theorem test_tx_refusals :
    ([tx 1 256 1 1 [] 0, tx 3 0 1 1 [] 0, tx 0 0 1 1 [] 0, tx 1 0 1 1 (List.replicate 256 0) 0,
      tx 1 1 1 1 [] 0, tx 2 16777216 1 1 [] 0, tx 3 300 1 1 (List.replicate 256 0) 0,
      tx 1 300 1 1 (List.replicate 256 0) 0, tx 1 1 1 1 (List.replicate 256 0) 0, tx 2 256 1 1 [] 0].map
        fun r => txOutcome params.seed r) =
    [.encRefused .badMessageId, .encRefused .badVersion, .encRefused .badVersion,
      .encRefused .payloadTooLong, .encRefused .unknownMessage, .encRefused .badMessageId,
      .encRefused .badVersion, .encRefused .badMessageId, .encRefused .payloadTooLong,
      .encRefused .unknownMessage] := by decide +kernel

/-- Y1 and Y3. -/
theorem test_seq_take :
    outcomeOf (exec .seqTake (State.resetWith params)) = some (.value 0) ∧
    blockOf (exec .seqTake { State.resetWith params with block := { Block.reset with seq := 255#8 } }) =
      some Block.reset := by decide

/-! ## The system operations: spec/95_test_vectors.md section 7 -/

/-- Y7. -/
theorem test_reset :
    blockOf (exec .reset { State.resetWith params with
      block := { acc := 0x1234#16, seq := 17#8, cntUnknown := 2, cntCksum := 3, rxbuf := bs [0xFE, 9] } }) =
      some { acc := 0xFFFF#16, seq := 0#8, cntUnknown := 0, cntCksum := 0, rxbuf := [] } := by decide

/-- The registers of R20, then Y5 and 0x800F. -/
theorem test_csr_read :
    ([0#4, 1#4, 2#4, 3#4, 4#4, 5#4, 15#4].map fun n =>
      csrOutcome { acc := 0x1234#16, seq := 17#8, cntUnknown := 2, cntCksum := 3, rxbuf := bs [0xFE, 9, 7, 7] } n) =
    [.value 0x1234, .value 17, .value 2, .value 3, .value 4, .badOp, .badOp] := by decide

/-! ## Witnesses: encoding -/

theorem witness_DecodeInvertsEncode :
    WellFormed (.frameV1 (v1 255)) = true ∧ WellFormed (.frameV2 (v2 255)) = true ∧
    WellFormed (.csrRead 15#4) = true := by decide +kernel

theorem witness_WireDecodeConsumesExactlyTheFrame :
    (v1 255).payload.length ≤ 255 ∧ (v1 0).payload.length ≤ 255 ∧
    (v2 255).payload.length ≤ 255 ∧ (v2 0).payload.length ≤ 255 := by decide +kernel

theorem witness_WireDecodeLosesNoBit :
    decodeWire (bs (e3 ++ [0x55])) = .ok (.frameV1 (parseV1 (bs e3)), [0x55#8]) := by decide

theorem witness_CommandWordsAreUnambiguous :
    decodeCommand 0x800F#16 .none = .ok (.csrRead 15#4) ∧
    decodeCommand 0x6000#16 (tx 1 0 1 1 heart 0) = .ok (.txEncode (tx 1 0 1 1 heart 0)) := by decide

/-! ## Witnesses: steps -/

theorem witness_StepRunsTheDecodedInstruction :
    (issued params [0x7000, 0x5000]).port.pending =
      Request.ofWord 0x7000#16 :: [Request.ofWord 0x5000#16] ∧
    decodeCommand 0x7000#16 .none = .ok .seqTake := by decide

/-- The reset state with RX.STEP pending and the given bytes buffered. -/
def stepping (p : Params) (ns : List Nat) : State :=
  (buffered p ns).withPending [Request.rxStep]

theorem witness_StepRunsTheFrameAtTheHead :
    (stepping params (e3 ++ [0x55])).port.pending = Request.rxStep :: [] ∧
    decodeCommand Request.rxStep.word Request.rxStep.operands = .ok .rxStep ∧
    WellFormed (.frameV1 (parseV1 (bs e3))) = true ∧
    encode (.frameV1 (parseV1 (bs e3))) = .wire (bs e3) ∧
    (stepping params (e3 ++ [0x55])).block.rxbuf = bs e3 ++ [0x55#8] ∧
    WellFormed (.frameV2 (parseV2 (bs e4))) = true ∧
    encode (.frameV2 (parseV2 (bs e4))) = .wire (bs e4) ∧
    (stepping params e4).block.rxbuf = bs e4 ++ [] := by decide

theorem witness_IdleStepChangesNothing : (buffered params [0xFE]).port.pending = [] := by decide

/-- The clauses at the ends of their ranges: 0x9000 and 0xF000 have a reserved op, 0x0100 and 0x8800 a reserved
bit, 0x0001 and 0x7080 an argument that must be 0, 0x8005 and 0x80FF no register. -/
theorem witness_WordsOfNoFormAnswerBadOp :
    (issued params [0x9000]).port.pending = Request.ofWord 0x9000#16 :: [] ∧
    9 ≤ ((0x9000#16).extractLsb' 12 4).toNat ∧ 9 ≤ ((0xF000#16).extractLsb' 12 4).toNat ∧
    (0x0100#16).extractLsb' 8 4 ≠ 0#4 ∧ (0x8800#16).extractLsb' 8 4 ≠ 0#4 ∧
    (((0x0001#16).extractLsb' 12 4).toNat ∈ [0, 1, 3, 5, 6, 7] ∧ (0x0001#16).extractLsb' 0 8 ≠ 0#8) ∧
    (((0x7080#16).extractLsb' 12 4).toNat ∈ [0, 1, 3, 5, 6, 7] ∧ (0x7080#16).extractLsb' 0 8 ≠ 0#8) ∧
    (((0x8005#16).extractLsb' 12 4).toNat = 8 ∧ 4 < ((0x8005#16).extractLsb' 0 8).toNat) ∧
    (((0x80FF#16).extractLsb' 12 4).toNat = 8 ∧ 4 < ((0x80FF#16).extractLsb' 0 8).toNat) := by decide

theorem witness_OperationsCompleteOneAtATimeInOrder :
    (issued params [0x4000, 0x9000]).port.pending =
      Request.ofWord 0x4000#16 :: [Request.ofWord 0x9000#16] := by decide

theorem witness_EveryOperationCompletesInEveryState :
    (∀ f, Instr.reset ≠ .frameV1 f) ∧ (∀ f, Instr.reset ≠ .frameV2 f) ∧
    maxFrame ≤ (buffered small (List.replicate 267 0)).params.bufCap ∧
    (buffered small (List.replicate 267 0)).block.rxbuf.length =
      (buffered small (List.replicate 267 0)).params.bufCap :=
  ⟨nofun, nofun, by decide +kernel, by decide +kernel⟩

theorem witness_EqualBlocksBehaveIdentically :
    (issued params [0x7000]).params = ((issued params [0x7000]).refuse .badOp).params ∧
    (issued params [0x7000]).block = ((issued params [0x7000]).refuse .badOp).block ∧
    (issued params [0x7000]).port.pending = ((issued params [0x7000]).refuse .badOp).port.pending := by
  decide

theorem witness_EveryStepKeepsTheInvariant :
    (issued small [0x40FE]).Inv ∧
    step (issued small [0x40FE]) =
      .next { params := small, block := { Block.reset with rxbuf := [0xFE#8] }
              port := { pending := [], outcomes := [.pushOk] } } :=
  ⟨⟨⟨by decide, by decide, by decide⟩, ⟨by decide, by decide, by decide⟩, nofun⟩,
    eq_next (by decide)⟩

theorem witness_RunsEndAtReset :
    (issued params [0x7000, 0x0000, 0x40FE]).port.pending =
      reqs [0x7000] ++ Request.ofWord 0x0000#16 :: reqs [0x40FE] ∧
    (∀ p ∈ reqs [0x7000], p.isReset = false) ∧ (Request.ofWord 0x0000#16).isReset = true := by decide

/-! ## Witnesses: the checksum -/

/-- Vector K10. -/
theorem witness_ChecksumStepIsTheByteRecipe :
    0x62 = ((0x56#8).toNat ^^^ (0x1234#16).toNat % 256) % 256 ∧ 0x42 = (0x62 ^^^ (0x62 <<< 4)) % 256 := by
  decide

theorem witness_OneChangedByteAlwaysChangesTheChecksum : (0x00#8) ≠ 0xFF#8 := by decide

/-- Other traffic between the checksum operations: RX.PUSH, CRC.READ, a word of no form. -/
theorem witness_ChecksumPortSurvivesOtherTraffic :
    (issued params [0x4055, 0x1000, 0x3000, 0x2001, 0x9000, 0x2032]).port.pending =
      [0x4055#16, 0x1000#16, 0x3000#16, 0x2001#16, 0x9000#16, 0x2032#16].map Request.ofWord ++ [] ∧
    ([0x4055#16, 0x1000#16, 0x3000#16, 0x2001#16, 0x9000#16, 0x2032#16].map Request.ofWord).filterMap
      Request.writesAcc = .crcInit :: (bs [1]).map .crcAcc ++ [.crcAcc 0x32#8] := by decide

theorem witness_ChecksumPortComputesTheFrameChecksum :
    (issued params [0x1000, 0x2000, 0x2001, 0x2032, 0x3000]).port.pending =
      crc16Requests (bs [0, 1]) 0x32#8 ++ [] := by decide

/-- Other traffic on the first and the last turn: RX.PUSH, CRC.READ, a word of no form. -/
theorem witness_InterleavedChecksumExpansionKeepsItsResult :
    [reqs [0x4055], [], [], reqs [0x3000, 0x9000]].length = (bs [1]).length + 3 ∧
    ∀ others ∈ [reqs [0x4055], [], [], reqs [0x3000, 0x9000]], ∀ q ∈ others, q.writesAcc = none := by decide

/-! ## Witnesses: the receive side -/

theorem witness_RxPushAppendsOrIsRefused :
    (buffered small (List.replicate 267 0)).block.rxbuf.length =
      (buffered small (List.replicate 267 0)).params.bufCap ∧
    (buffered small (List.replicate 266 0)).block.rxbuf.length ≠
      (buffered small (List.replicate 266 0)).params.bufCap := by decide +kernel

theorem witness_RxStepSkipsANonStartByte :
    (buffered params [0x55, 0xFE]).block.rxbuf = 0x55#8 :: [0xFE#8] ∧
    ∀ b ∈ bs [0x00, 0x55, 0xFC, 0xFF], b ≠ 0xFE#8 ∧ b ≠ 0xFD#8 := by decide

theorem witness_RxStepWaitsForAWholeFrame :
    (buffered params []).block.rxbuf = [] ∧
    (buffered params (e1.take 5)).block.rxbuf = 0xFE#8 :: bs [9, 0, 1, 1] ∧
    (buffered params (e1.take 5)).block.rxbuf.length < 6 ∧
    (buffered params (e2.take 9)).block.rxbuf = 0xFD#8 :: bs [9, 0, 0, 0, 1, 1, 0, 0] ∧
    (buffered params (e2.take 9)).block.rxbuf.length < 10 ∧
    (buffered params (e3.take 7)).block.rxbuf = 0xFE#8 :: 0#8 :: bs [0, 1, 1, 0, 0x86] ∧
    (buffered params (e3.take 7)).block.rxbuf.length < 6 + (0#8).toNat + 2 ∧
    (buffered params (e4.take 11)).block.rxbuf = 0xFD#8 :: 0#8 :: bs [0, 0, 0, 1, 1, 0, 0, 0, 0x79] ∧
    (buffered params (e4.take 11)).block.rxbuf.length < 10 + (0#8).toNat + 2 := by decide

/-- The shortest and the longest payload of each version. -/
theorem witness_RxStepDecidesTheCandidate :
    ([] : List Byte).length = (0#8).toNat ∧ (bs (List.replicate 255 0xAA)).length = (255#8).toNat ∧
    (buffered params e3).block.rxbuf =
      [0xFE#8, 0#8, 0#8, 1#8, 1#8, 0#8] ++ [] ++ [0x86#8, 0x5C#8] ++ [] ∧
    (buffered params ([0xFE, 255, 255, 1, 1, 74] ++ List.replicate 255 0xAA ++ [0x3E, 0x4B])).block.rxbuf =
      [0xFE#8, 255#8, 255#8, 1#8, 1#8, 74#8] ++ bs (List.replicate 255 0xAA) ++ [0x3E#8, 0x4B#8] ++ [] ∧
    (buffered params e4).block.rxbuf =
      [0xFD#8, 0#8, 0#8, 0#8, 0#8, 1#8, 1#8, 0#8, 0#8, 0#8] ++ [] ++ [0x79#8, 0x81#8] ++ [] ∧
    (buffered params ([0xFD, 255, 0, 0, 255, 1, 1, 74, 0, 0] ++ List.replicate 255 0xAA
        ++ [0xF1, 0x81])).block.rxbuf =
      [0xFD#8, 255#8, 0#8, 0#8, 255#8, 1#8, 1#8, 74#8, 0#8, 0#8] ++ bs (List.replicate 255 0xAA)
        ++ [0xF1#8, 0x81#8] ++ [] := by decide +kernel

/-- The reset state with exactly the given bytes buffered. -/
def holding (p : Params) (w : List Byte) : State :=
  { State.resetWith p with block := { Block.reset with rxbuf := w } }

theorem witness_WireFrameInstructionsComplete :
    (v1 255).payload.length ≤ 255 ∧ (v1 0).payload.length ≤ 255 ∧
    (holding params (wireV1 (v1 255))).block.rxbuf = wireV1 (v1 255) ++ [] ∧
    (v2 255).payload.length ≤ 255 ∧ (v2 0).payload.length ≤ 255 ∧
    (holding params (wireV2 (v2 255))).block.rxbuf = wireV2 (v2 255) ++ [] := by decide +kernel

theorem witness_WireFrameInstructionsNeedTheirBytes :
    ¬ wireV1 (v1 0) <+: (holding params ((wireV1 (v1 0)).take 7)).block.rxbuf ∧
    ¬ wireV2 (v2 0) <+: (holding params ((wireV2 (v2 0)).take 11)).block.rxbuf := by decide

/-- Vector E3's frame as RX.STEP delivers it. -/
def f3 : Frame := frame .v1 0 0 1 1 0 [] 0x5C86

theorem witness_DeliveredFramesCarryTheirChecksum :
    exec .rxStep (buffered params e3) = .next ((buffered params []).refuse (.rx (.frame f3))) ∧
    ((buffered params []).refuse (.rx (.frame f3))).port.outcomes =
      .rx (.frame f3) :: (buffered params e3).port.outcomes :=
  ⟨eq_next (by decide), by decide⟩

/-- Vector E4's frame as RX.STEP delivers it, other bytes after it. -/
def f4 : Frame := frame .v2 0 0 1 1 0 [] 0x8179

theorem witness_DeliveredFramesCarryTheirChecksum_v2 :
    exec .rxStep (buffered params (e4 ++ [0xFE])) =
      .next ((buffered params [0xFE]).refuse (.rx (.frame f4))) ∧
    ((buffered params [0xFE]).refuse (.rx (.frame f4))).port.outcomes =
      .rx (.frame f4) :: (buffered params (e4 ++ [0xFE])).port.outcomes :=
  ⟨eq_next (by decide), by decide⟩

/-- R119 on vector E3: later bytes, complete frame or not, do not change the decision. -/
theorem test_decision_stable_under_later_bytes :
    rxBufStep params.seed (bs e3) = (.frame f3, []) ∧
    rxBufStep params.seed (bs (e3 ++ [0xFD, 0x55])) = (.frame f3, bs [0xFD, 0x55]) := by decide

theorem witness_RxStepDependsOnBufferAndSeedOnly :
    (buffered params e3).params.seed = (buffered { params with bufCap := 267 } e3).params.seed ∧
    (buffered params e3).block.rxbuf = (buffered { params with bufCap := 267 } e3).block.rxbuf := by decide

theorem witness_NeedMoreIsIdle :
    exec .rxStep (buffered params (e3.take 7)) =
      .next ((buffered params (e3.take 7)).refuse (.rx .needMore)) ∧
    ((buffered params (e3.take 7)).refuse (.rx .needMore)).port.outcomes =
      .rx .needMore :: (buffered params (e3.take 7)).port.outcomes :=
  ⟨eq_next (by decide), by decide⟩

theorem witness_DrainEndsWithNeedMore :
    exec .rxStep (buffered params [0x55]) = .next ((buffered params []).refuse (.rx (.skip 0x55#8))) ∧
    ((buffered params []).refuse (.rx (.skip 0x55#8))).port.outcomes =
      .rx (.skip 0x55#8) :: (buffered params [0x55]).port.outcomes ∧ RxOutcome.skip 0x55#8 ≠ .needMore :=
  ⟨eq_next (by decide), by decide, by decide⟩

theorem witness_DecisionsAreFinal :
    (buffered params (e3 ++ [0xFE])).params = (buffered params e3).params ∧
    (buffered params (e3 ++ [0xFE])).block =
      { (buffered params e3).block with rxbuf := (buffered params e3).block.rxbuf ++ [0xFE#8] } ∧
    exec .rxStep (buffered params e3) = .next ((buffered params []).refuse (.rx (.frame f3))) ∧
    ((buffered params []).refuse (.rx (.frame f3))).port.outcomes =
      .rx (.frame f3) :: (buffered params e3).port.outcomes ∧ RxOutcome.frame f3 ≠ .needMore :=
  ⟨by decide, by decide, eq_next (by decide), by decide, by decide⟩

theorem witness_MachinePerformsReceiveSchedules :
    (issued params [0x40FE, 0x5000]).port.pending = [RxAction.push 0xFE#8, .step].map RxAction.request ∧
    (issued params [0x40FE, 0x5000]).port.outcomes = [] := by decide

/-- The counters at their largest value. -/
theorem witness_DecodingIsChunkIndependent :
    ({ Block.reset with cntUnknown := 255, cntCksum := 255 } : Block).rxbuf = [] ∧
    255 < 2 ^ small.cntW ∧
    (rxSchedule small [.push 0x55#8, .step, .push 0xFE#8] Block.reset).accepted = [0x55#8, 0xFE#8] := by
  decide

/-- The smallest capacity and the smallest chunk. -/
theorem witness_FeedingIgnoresCapacityAndChunks :
    maxFrame ≤ small.bufCap ∧ 1 ≤ 1 ∧ Block.reset.rxbuf = [] := by decide

/-- Program P5 of spec/95_test_vectors.md on a full buffer of the smallest capacity, its bytes all zero. -/
theorem witness_FullBufferAlwaysMakesProgress :
    maxFrame ≤ (buffered small (List.replicate 267 0)).params.bufCap ∧
    (buffered small (List.replicate 267 0)).block.rxbuf.length =
      (buffered small (List.replicate 267 0)).params.bufCap ∧
    exec .rxStep (buffered small (List.replicate 267 0)) =
      .next ((buffered small (List.replicate 266 0)).refuse (.rx (.skip 0#8))) :=
  ⟨by decide +kernel, by decide +kernel, eq_next (by decide +kernel)⟩

/-- The smallest capacity and chunk; SEQ.TAKE, CRC.INIT and a word of no form as the other traffic. -/
theorem witness_InterleavedReceiveExpansionsKeepTheirResult :
    maxFrame ≤ (State.resetWith small).params.bufCap ∧ 1 ≤ 1 ∧
    ∀ q ∈ reqs [0x7000, 0x1000, 0x9000], q.Outside .receive := by
  refine ⟨by decide, by decide, fun q hq => ?_⟩
  simp only [reqs, List.map_cons, List.map_nil, List.mem_cons, List.not_mem_nil, or_false] at hq
  rcases hq with rfl | rfl | rfl <;> intro i hi
  · cases hi; decide
  · cases hi; decide
  · cases hi

/-- One whole frame pushed and stepped: the buffer left answers NeedMore. -/
theorem witness_ReceiveResultIsTheDecodedStream :
    (rxDecide params.seed
      (rxSchedule params ((bs e3).map .push ++ [.step]) Block.reset).block.rxbuf).outcome = .needMore := by decide

theorem witness_EncodedFramesAreDelivered :
    exec (.txEncode (tx 1 0 1 1 [] 0)) (State.resetWith params) =
      .next ((State.resetWith params).refuse (.encoded (bs e3))) ∧
    ((State.resetWith params).refuse (.encoded (bs e3))).port.outcomes =
      .encoded (bs e3) :: (State.resetWith params).port.outcomes ∧
    (buffered params (e3 ++ [0xFE])).params.seed = (State.resetWith params).params.seed ∧
    (buffered params (e3 ++ [0xFE])).block.rxbuf = bs e3 ++ [0xFE#8] :=
  ⟨eq_next (by decide), by decide, by decide, by decide⟩

/-- The injected bytes at the ends of the ranges, and vector D7's stray start byte: 262 bytes are needed, and 252
more bytes after it and its 8-byte frame leave one missing. -/
theorem witness_ABadByteBetweenTwoFrames :
    encodeFrame params.seed (tx 1 0 1 1 heart 0) = .ok (bs e1) ∧
    encodeFrame params.seed (tx 1 0 1 1 [] 0) = .ok (bs e3) ∧
    (∀ b ∈ [0x00#8, 0xFC#8, 0xFF#8], b ≠ 0xFE#8 ∧ b ≠ 0xFD#8) ∧
    Version.ofStart 0xFE#8 = some .v1 ∧ Version.ofStart 0xFD#8 = some .v2 ∧
    1 + (bs e3).length + (List.replicate 252 0x55#8).length = 261 ∧
    261 < frameLen .v1 (byteAt (bs e3) 0).toNat := by decide +kernel

/-- Vector D17. -/
theorem witness_ACorruptedFrameCostsOnlyItself :
    rxDecide params.seed (0xFE#8 :: bs [0, 0, 1, 1, 0, 0x87, 0x5C]) = ⟨.checksumError, 1⟩ ∧
    (∀ c ∈ bs [0, 0, 1, 1, 0, 0x87, 0x5C], c ≠ 0xFE#8 ∧ c ≠ 0xFD#8) ∧
    encodeFrame params.seed (tx 1 0 1 1 [] 0) = .ok (bs e3) := by decide

/-! ## Witnesses: the transmit side -/

/-- The largest ids of both versions with the longest payload. -/
theorem witness_TxEncodeBuildsTheFrame :
    (tx 1 255 1 1 (List.replicate 255 0) 0).version = 1 ∧
    (tx 1 255 1 1 (List.replicate 255 0) 0).messageId ≤ 255 ∧
    (tx 1 255 1 1 (List.replicate 255 0) 0).payload.length ≤ 255 ∧
    Registry.lookup (State.resetWith ends).params.seed 255 = some 0x11#8 ∧
    (tx 2 16777215 1 1 (List.replicate 255 0) 0).version = 2 ∧
    (tx 2 16777215 1 1 (List.replicate 255 0) 0).messageId ≤ 16777215 ∧
    (tx 2 16777215 1 1 (List.replicate 255 0) 0).payload.length ≤ 255 ∧
    Registry.lookup (State.resetWith ends).params.seed 16777215 = some 0x22#8 := by decide +kernel

theorem witness_TxEncodeRefusesInOrder :
    (∀ v ∈ [0, 3], (tx v 0 1 1 [] 0).version ≠ 1 ∧ (tx v 0 1 1 [] 0).version ≠ 2) ∧
    ((tx 1 256 1 1 [] 0).version = 1 ∧ 255 < (tx 1 256 1 1 [] 0).messageId) ∧
    ((tx 2 16777216 1 1 [] 0).version = 2 ∧ 16777215 < (tx 2 16777216 1 1 [] 0).messageId) ∧
    ((tx 1 255 1 1 (List.replicate 256 0) 0).version = 1 ∧
      (tx 1 255 1 1 (List.replicate 256 0) 0).messageId ≤ 255 ∧
      255 < (tx 1 255 1 1 (List.replicate 256 0) 0).payload.length) ∧
    ((tx 2 16777215 1 1 (List.replicate 255 0) 0).version = 2 ∧
      (tx 2 16777215 1 1 (List.replicate 255 0) 0).messageId ≤ 16777215 ∧
      (tx 2 16777215 1 1 (List.replicate 255 0) 0).payload.length ≤ 255 ∧
      Registry.lookup (State.resetWith params).params.seed 16777215 = none) := by decide +kernel

theorem witness_EncodedFramesHaveTheirLength :
    encodeFrame params.seed (tx 1 0 1 1 [] 0) = .ok (bs e3) ∧
    encodeFrame params.seed (tx 2 74 1 1 (List.replicate 255 0xAA) 255) =
      .ok (bs ([0xFD, 255, 0, 0, 255, 1, 1, 74, 0, 0] ++ List.replicate 255 0xAA ++ [0xF1, 0x81])) := by
  decide +kernel

theorem witness_SequenceValuesAreConsecutive :
    decodeCommand (Request.ofWord 0x7000#16).word (Request.ofWord 0x7000#16).operands = .ok .seqTake ∧
    (issued params [0x7000, 0x7000, 0x8001]).port.pending =
      List.replicate 2 (Request.ofWord 0x7000#16) ++ [Request.ofWord 0x8001#16] := by decide

/-! ## Witnesses: registers, counters, outcomes -/

theorem witness_CsrReadReturnsTheRegister : ∀ n ∈ [5#4, 15#4], 4 < n.toNat := by decide

/-- One instruction for each clause: RESET, an unknown id, a failed checksum at the counter's wrap, and an
operation that moves neither counter. -/
theorem witness_CountersCountTheirOutcomes :
    outcomeOf (exec .reset (buffered small [0xFE])) = some .done ∧
    outcomeOf (exec .rxStep (buffered small [0xFE, 0, 0, 0, 0, 1, 0, 0])) =
      some (.rx (.unknownMessage (frame .v1 0 0 0 0 1 [] 0))) ∧
    outcomeOf (exec .rxStep { buffered small [] with
      block := { Block.reset with cntCksum := 255, rxbuf := bs [0xFE, 0, 0, 1, 1, 0, 0x87, 0x5C] } }) =
      some (.rx .checksumError) ∧
    outcomeOf (exec .seqTake (buffered small [])) = some (.value 0) := by decide

theorem witness_StateIsWrittenOnlyByItsOperations :
    (blockOf (exec .crcInit { buffered small [] with block := { Block.reset with acc := 0#16 } })).map
      Block.acc = some 0xFFFF#16 ∧
    (blockOf (exec .seqTake (buffered small []))).map Block.seq = some 1#8 ∧
    (blockOf (exec .rxStep (buffered small [0xFE, 0, 0, 0, 0, 1, 0, 0]))).map Block.cntUnknown = some 1 ∧
    (blockOf (exec (.rxPush 0#8) (buffered small []))).map Block.rxbuf = some [0#8] := by decide

theorem witness_RefusalsAndIdleOutcomesChangeNothing :
    exec (.csrRead 5#4) (buffered params [0xFE]) = .next ((buffered params [0xFE]).refuse .badOp) ∧
    OpOutcome.kind .badOp = .refusal ∧
    exec .rxStep (buffered params [0xFE]) = .next ((buffered params [0xFE]).refuse (.rx .needMore)) ∧
    OpOutcome.kind (.rx .needMore) = .idle :=
  ⟨eq_next (by decide), by decide, eq_next (by decide), by decide⟩

theorem witness_OperationsOfDifferentGroupsCommute :
    opGroup .rxStep ≠ opGroup .seqTake ∧ opGroup .rxStep ≠ .all ∧ opGroup .seqTake ≠ .all ∧
    exec .rxStep (buffered params [0x55]) = .next ((buffered params []).refuse (.rx (.skip 0x55#8))) ∧
    exec .seqTake ((buffered params []).refuse (.rx (.skip 0x55#8))) =
      .next { params := params, block := { Block.reset with seq := 1#8 }
              port := { pending := [], outcomes := [.value 0, .rx (.skip 0x55#8)] } } :=
  ⟨by decide, by decide, by decide, eq_next (by decide), eq_next (by decide)⟩

end Sys2Proof.Tests
end

namespace Sys2Proof.Machine

/-! ## The length of an encoded frame (spec/00_scope.md R9, spec/30_encoding.md R57) -/

/-- A version is named by its own number and by no other (spec/00_scope.md R3). -/
theorem ofNumber_eq_some_iff {n : Nat} {v : Version} : Version.ofNumber n = some v ↔ n = v.number := by
  constructor
  · intro h
    unfold Version.ofNumber at h
    split at h <;> cases h <;> rfl
  · rintro rfl
    cases v <;> rfl

/-- What an encode that succeeds says of its operands and of the frame's length. -/
theorem encodeFrame_ok_length {seed : List Host.Cell} {r : TxOperands} {w : List Byte}
    (h : encodeFrame seed r = .ok w) :
    ∃ v : Version, r.version = v.number ∧ r.payload.length ≤ 255 ∧
      w.length = frameLen v r.payload.length := by
  obtain ⟨v, sd, hversion, -, hpayload, -, rfl⟩ := encodeFrame_ok_iff.mp h
  exact ⟨v, ofNumber_eq_some_iff.mp hversion, hpayload, buildFrame_length v r sd⟩

/-- Settles O51: the length of the frame built, in each version, with the payload bound that the encode's tests
ensure. -/
theorem encodedFramesHaveTheirLength : Obligations.EncodedFramesHaveTheirLength := by
  intro seed r w h
  obtain ⟨v, hversion, hpayload, hlength⟩ := encodeFrame_ok_length h
  rw [frameLen_eq] at hlength
  cases v with
  | v1 =>
    rw [Version.hdrLen_v1] at hlength
    exact .inl ⟨hversion, by omega, by omega⟩
  | v2 =>
    rw [Version.hdrLen_v2] at hlength
    exact .inr ⟨hversion, by omega, by omega⟩

end Sys2Proof.Machine

namespace Sys2Proof.Machine

/-! ## What one step answers, by the oldest request (spec/20_memory.md R36) -/

theorem step_nil {s : State} (h : s.port.pending = []) : step s = .next s := by
  simp only [step, fetch_nil h]

theorem step_ok {s : State} {q : Request} {rest : List Request} {i : Instr}
    (h : s.port.pending = q :: rest) (hd : decodeCommand q.word q.operands = .ok i) :
    step s = exec i (s.withPending rest) := by
  simp only [step, fetch_ok h hd]

theorem step_error {s : State} {q : Request} {rest : List Request} {e : DecodeError}
    (h : s.port.pending = q :: rest) (hd : decodeCommand q.word q.operands = .error e) :
    step s = .next ((s.withPending rest).refuse .badOp) := by
  simp only [step, fetch_error h hd]

/-- Settles O8: the case of an empty pending list. -/
theorem idleStepChangesNothing : Obligations.IdleStepChangesNothing :=
  fun _ h => step_nil h

/-! ## The invariant (spec/10_state.md R10, R24) -/

/-- RESET's block is legal under any parameters. -/
theorem Block.legal_reset (p : Params) : Block.reset.Legal p where
  rxbuf_wf := Memory.wf_nil p.bufCap
  cntUnknown_lt := Nat.two_pow_pos p.cntW
  cntCksum_lt := Nat.two_pow_pos p.cntW

/-- RX.PUSH keeps RXBUF within BUF_CAP (spec/41_rx_decode.md R111). -/
theorem Block.Legal.push {p : Params} {b : Block} (h : b.Legal p) (x : Byte) :
    (b.push p.bufCap x).1.Legal p := by
  rcases Block.push_cases p.bufCap b x with ⟨-, hp⟩ | ⟨hroom, hp⟩
  · rw [hp]; exact h
  · rw [hp]
    exact ⟨Memory.wf_append h.rxbuf_wf hroom, h.cntUnknown_lt, h.cntCksum_lt⟩

/-- A decision pops bytes and moves counters modulo `2 ^ CNT_W`, so the block stays legal whatever was decided. -/
theorem Block.Legal.applyDecision {p : Params} {b : Block} (h : b.Legal p) (d : RxDecision) :
    (b.applyDecision p.cntW d).Legal p := by
  obtain ⟨o, n⟩ := d
  have hbuf : Memory.wf p.bufCap (b.rxbuf.drop n) = true := Memory.wf_pop h.rxbuf_wf
  have hmod : ∀ k, k % 2 ^ p.cntW < 2 ^ p.cntW := fun k => Nat.mod_lt k (Nat.two_pow_pos p.cntW)
  cases o with
  | needMore => exact ⟨hbuf, h.cntUnknown_lt, h.cntCksum_lt⟩
  | skip x => exact ⟨hbuf, h.cntUnknown_lt, h.cntCksum_lt⟩
  | frame f => exact ⟨hbuf, h.cntUnknown_lt, h.cntCksum_lt⟩
  | unknownMessage f => exact ⟨hbuf, hmod _, h.cntCksum_lt⟩
  | checksumError => exact ⟨hbuf, h.cntUnknown_lt, hmod _⟩

/-- An operation that ends with a legal block and a sound outcome keeps the invariant. -/
theorem State.Inv.finish {s : State} {b : Block} {o : OpOutcome} (h : s.Inv) (hb : b.Legal s.params)
    (ho : o.Sound) : (s.finish b o).Inv where
  params_legal := h.params_legal
  block_legal := hb
  outcomes_sound := by
    rw [State.finish_outcomes]
    exact List.forall_mem_cons.2 ⟨ho, h.outcomes_sound⟩

/-- The invariant does not speak of the pending requests. -/
theorem State.Inv.withPending {s : State} (h : s.Inv) (rest : List Request) : (s.withPending rest).Inv :=
  ⟨h.params_legal, h.block_legal, h.outcomes_sound⟩

/-! ### Returned values are sound -/

/-- The fields RX.STEP assembles are a sound frame: the payload is as long as its length byte says, and the id fits
the version's id field (spec/30_encoding.md R55). -/
theorem assembleFrame_sound (v : Version) (bs : List Byte) : (assembleFrame v bs).Sound := by
  cases v with
  | v1 =>
    have hid := (parseV1 bs).messageId.isLt
    refine ⟨(lenByte_toNat (parseV1_payload_le bs)).symm, ?_⟩
    show ((parseV1 bs).messageId.setWidth 24).toNat ≤ 255
    rw [BitVec.toNat_setWidth]
    omega
  | v2 =>
    have hid := (parseV2 bs).messageId.isLt
    refine ⟨(lenByte_toNat (parseV2_payload_le bs)).symm, ?_⟩
    show (parseV2 bs).messageId.toNat ≤ 16777215
    omega

/-- Whatever is decided on a candidate returns a sound value. -/
theorem decideCandidate_sound (seed : List Host.Cell) (v : Version) (bs : List Byte) :
    (OpOutcome.rx (decideCandidate seed v bs).outcome).Sound := by
  rcases decideCandidate_cases seed v bs with ⟨-, hd⟩ | ⟨sd, -, -, hd⟩ | ⟨sd, -, -, hd⟩
  · rw [hd]; exact assembleFrame_sound v bs
  · rw [hd]; trivial
  · rw [hd]; exact assembleFrame_sound v bs

/-- RX.STEP returns a sound value from every buffer. -/
theorem rxDecide_sound (seed : List Host.Cell) (buf : List Byte) :
    (OpOutcome.rx (rxDecide seed buf).outcome).Sound := by
  cases hw : wireHead buf with
  | needMore => rw [rxDecide_of_needMore hw]; trivial
  | skip b => rw [rxDecide_of_skip hw]; trivial
  | candidate v n =>
    rw [rxDecide_of_candidate hw]
    exact decideCandidate_sound seed v (buf.take n)

/-- TX.ENCODE returns 8 to 267 bytes or refuses (spec/30_encoding.md R57). -/
theorem txOutcome_sound (seed : List Host.Cell) (r : TxOperands) : (txOutcome seed r).Sound := by
  unfold txOutcome
  cases he : encodeFrame seed r with
  | error e => trivial
  | ok w =>
    obtain ⟨v, -, hpayload, hlength⟩ := encodeFrame_ok_length he
    have hge := v.hdrLen_ge
    have hle := v.hdrLen_le
    rw [frameLen_eq] at hlength
    exact ⟨by omega, by unfold maxFrame; omega⟩

/-- CSR.READ returns a value or BadOp (spec/43_system.md R152). -/
theorem csrOutcome_sound (b : Block) (n : BitVec 4) : (csrOutcome b n).Sound := by
  unfold csrOutcome
  split <;> trivial

/-! ### Every operation keeps it -/

/-- A wire format's meaning keeps the invariant, whatever its bytes. -/
theorem consumeCandidate_keeps_inv {v : Version} {bs : List Byte} {s t : State} (hs : s.Inv)
    (h : consumeCandidate v bs s = .next t) : t.Inv := by
  obtain ⟨-, rfl⟩ := consumeCandidate_next h
  exact hs.finish (hs.block_legal.applyDecision _) (decideCandidate_sound _ v bs)

theorem exec_keeps_inv {i : Instr} {s t : State} (hs : s.Inv) (h : exec i s = .next t) : t.Inv := by
  cases i with
  | frameV1 f => exact consumeCandidate_keeps_inv hs h
  | frameV2 f => exact consumeCandidate_keeps_inv hs h
  | reset => cases h; exact hs.finish (Block.legal_reset _) trivial
  | crcInit =>
    obtain ⟨hbuf, hunknown, hcksum⟩ := hs.block_legal
    cases h; exact hs.finish ⟨hbuf, hunknown, hcksum⟩ trivial
  | crcAcc b =>
    obtain ⟨hbuf, hunknown, hcksum⟩ := hs.block_legal
    cases h; exact hs.finish ⟨hbuf, hunknown, hcksum⟩ trivial
  | crcRead => cases h; exact hs.finish hs.block_legal trivial
  | rxPush b =>
    have ho : (s.block.push s.params.bufCap b).2.Sound := by
      rcases Block.push_cases s.params.bufCap s.block b with ⟨-, hp⟩ | ⟨-, hp⟩ <;> rw [hp] <;> trivial
    cases h; exact hs.finish (hs.block_legal.push b) ho
  | rxStep =>
    cases h
    exact hs.finish (hs.block_legal.applyDecision _) (rxDecide_sound s.params.seed s.block.rxbuf)
  | txEncode r => cases h; exact hs.finish hs.block_legal (txOutcome_sound s.params.seed r)
  | seqTake =>
    obtain ⟨hbuf, hunknown, hcksum⟩ := hs.block_legal
    cases h; exact hs.finish ⟨hbuf, hunknown, hcksum⟩ trivial
  | csrRead n => cases h; exact hs.finish hs.block_legal (csrOutcome_sound s.block n)

/-- Settles O15, by what a step answers: the same state, the decoded operation's, or a BadOp. -/
theorem everyStepKeepsTheInvariant : Obligations.EveryStepKeepsTheInvariant := by
  intro s t hs h
  cases hp : s.port.pending with
  | nil => rw [step_nil hp] at h; cases h; exact hs
  | cons q rest =>
    have hrest := hs.withPending rest
    cases hd : decodeCommand q.word q.operands with
    | ok i => rw [step_ok hp hd] at h; exact exec_keeps_inv hrest h
    | error e => rw [step_error hp hd] at h; cases h; exact hrest.finish hrest.block_legal trivial

/-! ## The block, the parameters and the requests decide everything (spec/10_state.md R23) -/

/-- An operation's new block and outcome are taken from the parameters and the block alone. -/
theorem exec_same_ending {i : Instr} {s u : State} (h1 : ∀ f, i ≠ .frameV1 f) (h2 : ∀ f, i ≠ .frameV2 f)
    (hparams : s.params = u.params) (hblock : s.block = u.block) :
    ∃ b o, exec i s = .next (s.finish b o) ∧ exec i u = .next (u.finish b o) := by
  obtain ⟨p, b, port⟩ := s
  obtain ⟨p', b', port'⟩ := u
  obtain rfl : p = p' := hparams
  obtain rfl : b = b' := hblock
  cases i with
  | frameV1 f => exact absurd rfl (h1 f)
  | frameV2 f => exact absurd rfl (h2 f)
  | reset => exact ⟨_, _, rfl, rfl⟩
  | crcInit => exact ⟨_, _, rfl, rfl⟩
  | crcAcc x => exact ⟨_, _, rfl, rfl⟩
  | crcRead => exact ⟨_, _, rfl, rfl⟩
  | rxPush x => exact ⟨_, _, rfl, rfl⟩
  | rxStep => exact ⟨_, _, rfl, rfl⟩
  | txEncode r => exact ⟨_, _, rfl, rfl⟩
  | seqTake => exact ⟨_, _, rfl, rfl⟩
  | csrRead n => exact ⟨_, _, rfl, rfl⟩

/-- The two machines are alike in all that an operation can read; what they returned before may differ. -/
structure State.Alike (s u : State) : Prop where
  params_eq : s.params = u.params
  block_eq : s.block = u.block
  pending_eq : s.port.pending = u.port.pending

/-- The same ending leaves machines alike that have the same parameters and requests. -/
theorem State.Alike.finish {s u : State} (h : s.Alike u) (b : Block) (o : OpOutcome) :
    (s.finish b o).Alike (u.finish b o) :=
  ⟨h.params_eq, rfl, h.pending_eq⟩

theorem State.Alike.withPending {s u : State} (h : s.Alike u) (rest : List Request) :
    (s.withPending rest).Alike (u.withPending rest) :=
  ⟨h.params_eq, h.block_eq, rfl⟩

/-- With a request pending, alike machines take it and end alike, with the same outcome. -/
theorem step_same_ending {s u : State} {q : Request} {rest : List Request} (h : s.Alike u)
    (hp : s.port.pending = q :: rest) :
    ∃ b o, step s = .next ((s.withPending rest).finish b o) ∧
      step u = .next ((u.withPending rest).finish b o) := by
  have hq : u.port.pending = q :: rest := h.pending_eq ▸ hp
  have hrest := h.withPending rest
  cases hd : decodeCommand q.word q.operands with
  | ok i =>
    rw [step_ok hp hd, step_ok hq hd]
    obtain ⟨hv1, hv2⟩ := decodeCommand_ne_frame hd
    exact exec_same_ending hv1 hv2 hrest.params_eq hrest.block_eq
  | error e =>
    refine ⟨s.block, .badOp, step_error hp hd, ?_⟩
    rw [step_error hq hd, h.block_eq]
    rfl

/-- Alike machines step to alike machines and return the same outcomes, one or none. -/
theorem step_alike {s u : State} (h : s.Alike u) :
    ∃ s' u' os, step s = .next s' ∧ step u = .next u' ∧ s'.Alike u' ∧
      s'.port.outcomes = os ++ s.port.outcomes ∧ u'.port.outcomes = os ++ u.port.outcomes := by
  cases hp : s.port.pending with
  | nil => exact ⟨s, u, [], step_nil hp, step_nil (h.pending_eq ▸ hp), h, rfl, rfl⟩
  | cons q rest =>
    obtain ⟨b, o, hs, hu⟩ := step_same_ending h hp
    exact ⟨_, _, [o], hs, hu, (h.withPending rest).finish b o, rfl, rfl⟩

theorem run_alike (n : Nat) {s u : State} (h : s.Alike u) :
    ∃ (s' u' : State) (os : List OpOutcome), core.run n s = .next s' ∧ core.run n u = .next u' ∧ s'.Alike u' ∧
      s'.port.outcomes = os ++ s.port.outcomes ∧ u'.port.outcomes = os ++ u.port.outcomes := by
  induction n generalizing s u with
  | zero => exact ⟨s, u, [], rfl, rfl, h, rfl, rfl⟩
  | succ n ih =>
    obtain ⟨s₁, u₁, os₁, hs, hu, h₁, hso₁, huo₁⟩ := step_alike h
    obtain ⟨s₂, u₂, os₂, hs₂, hu₂, h₂, hso₂, huo₂⟩ := ih h₁
    refine ⟨s₂, u₂, os₂ ++ os₁, ?_, ?_, h₂, ?_, ?_⟩
    · rw [core_run_succ n hs, hs₂]
    · rw [core_run_succ n hu, hu₂]
    · rw [hso₂, hso₁, List.append_assoc]
    · rw [huo₂, huo₁, List.append_assoc]

/-- Settles O12, by induction on the number of steps (`run_alike`). -/
theorem equalBlocksBehaveIdentically : Obligations.EqualBlocksBehaveIdentically := by
  intro n s u hparams hblock hpending
  obtain ⟨s', u', os, hs, hu, ⟨hparams', hblock', hpending'⟩, hso, huo⟩ := run_alike n ⟨hparams, hblock, hpending⟩
  exact ⟨s', u', os, hs, hu, hparams', hblock', hpending', hso, huo⟩

/-! ## Delivered frames (spec/10_state.md R24, spec/30_encoding.md R52 to R55) -/

/-- RX.STEP delivers a frame only where a complete candidate stands at the head, its id has a seed and its
checksum agrees; the whole candidate then leaves (spec/41_rx_decode.md R110). -/
theorem rxDecide_eq_frame {seed : List Host.Cell} {buf : List Byte} {f : Frame}
    (h : (rxDecide seed buf).outcome = .frame f) :
    ∃ v n sd, wireHead buf = .candidate v n ∧ assembleFrame v (buf.take n) = f ∧
      Registry.lookup seed f.messageId.toNat = some sd ∧
      crc16 (checksumRegion v (buf.take n)) sd = f.checksum ∧ (rxDecide seed buf).consumed = n := by
  cases hw : wireHead buf with
  | needMore => rw [rxDecide_of_needMore hw] at h; cases h
  | skip b => rw [rxDecide_of_skip hw] at h; cases h
  | candidate v n =>
    obtain ⟨-, -, hle⟩ := wireHead_candidate_iff.1 hw
    rw [rxDecide_of_candidate hw] at h ⊢
    rcases decideCandidate_cases seed v (buf.take n) with ⟨-, hd⟩ | ⟨sd, -, -, hd⟩ | ⟨sd, hl, hc, hd⟩
    · rw [hd] at h; cases h
    · rw [hd] at h; cases h
    · rw [hd] at h ⊢
      cases h
      exact ⟨v, n, sd, rfl, rfl, hl, hc, List.length_take_of_le hle⟩

/-- The bytes of a candidate at the head have the length of a frame, as their own byte 1 declares it
(spec/30_encoding.md R57). -/
theorem candidate_take_length {buf : List Byte} {v : Version} {n : Nat} (h : wireHead buf = .candidate v n) :
    (buf.take n).length = frameLen v (byteAt (buf.take n) 1).toNat := by
  obtain ⟨-, hn, hle⟩ := wireHead_candidate_iff.1 h
  have hhdr := v.hdrLen_ge
  have heq := frameLen_eq v (byteAt buf 1).toNat
  rw [byteAt_take buf 1 n (by omega), ← hn, List.length_take_of_le hle]

/-- `w` is the frame `f` byte by byte (R52, R53); the flag bytes of version 2 are no field of `f` (R56). -/
def Frame.OnWire (f : Frame) (w : List Byte) : Prop :=
  f.protocolVersion = .v1 ∧
      w = [0xFE#8, f.payloadLength, f.sequence, f.systemId, f.componentId, f.messageId.extractLsb' 0 8] ++
        f.payload ++ checksumBytes f.checksum ∨
    f.protocolVersion = .v2 ∧ ∃ fl0 fl1 : Byte,
      w = [0xFD#8, f.payloadLength, fl0, fl1, f.sequence, f.systemId, f.componentId] ++ msgIdBytes f.messageId ++
        f.payload ++ checksumBytes f.checksum

/-- A version 1 id is the low byte of the 24 bits it is widened to. -/
theorem extractLsb'_setWidth_msgId (id : Byte) : (id.setWidth 24 : MsgId).extractLsb' 0 8 = id := by
  apply BitVec.eq_of_getLsbD_eq
  intro i hi
  simp only [BitVec.getLsbD_extractLsb', BitVec.getLsbD_setWidth, Nat.zero_add, hi, decide_true, Bool.true_and,
    show i < 24 by omega]

/-- The frame assembled from a candidate stands on the wire as the candidate's bytes: no field is lost (R55). -/
theorem assembleFrame_onWire {buf : List Byte} {v : Version} {n : Nat} (h : wireHead buf = .candidate v n) :
    (assembleFrame v (buf.take n)).OnWire (buf.take n) := by
  rcases candidate_bytes h with
    ⟨rfl, len, sq, sys, comp, id, lo, hi, p, x, hp, rfl, rfl⟩ |
    ⟨rfl, len, fl0, fl1, sq, sys, comp, id0, id1, id2, lo, hi, p, x, hp, rfl, rfl⟩
  · have hparse := parseV1_bytes len sq sys comp id lo hi p [] hp
    rw [List.append_nil] at hparse
    refine .inl ⟨rfl, ?_⟩
    rw [List.take_left]
    simp only [assembleFrame, hparse, frameOfV1, lenByte_eq hp, extractLsb'_setWidth_msgId,
      checksumBytes_joinChecksum]
  · have hparse := parseV2_bytes len fl0 fl1 sq sys comp id0 id1 id2 lo hi p [] hp
    rw [List.append_nil] at hparse
    refine .inr ⟨rfl, fl0, fl1, ?_⟩
    rw [List.take_left]
    simp only [assembleFrame, hparse, frameOfV2, lenByte_eq hp, msgIdBytes_joinMsgId, checksumBytes_joinChecksum]
    rfl

theorem assembleFrame_protocolVersion (v : Version) (bs : List Byte) :
    (assembleFrame v bs).protocolVersion = v := by
  cases v <;> rfl

theorem assembleFrame_payloadLength (v : Version) (bs : List Byte) :
    (assembleFrame v bs).payloadLength = lenByte (assembleFrame v bs).payload := by
  cases v <;> rfl

/-- The checksum region of a frame's bytes is all of them but the start byte and the last two (R54). -/
theorem checksumRegion_eq {v : Version} {w : List Byte} (h : w.length = frameLen v (byteAt w 1).toNat) :
    checksumRegion v w = (w.take (w.length - 2)).drop 1 := by
  rw [checksumRegion, slice, h, frameLen_eq, Nat.add_sub_cancel]

/-- The first two bytes of a frame on the wire are its start byte and its length byte. -/
theorem Frame.OnWire.byteAt_eq {f : Frame} {w : List Byte} (h : f.OnWire w) :
    byteAt w 0 = f.protocolVersion.startByte ∧ byteAt w 1 = f.payloadLength := by
  rcases h with ⟨hv, rfl⟩ | ⟨hv, fl0, fl1, rfl⟩ <;> rw [hv] <;> exact ⟨rfl, rfl⟩

/-- Settles O34: the candidate RX.STEP found (`rxDecide_eq_frame`) is the frame's bytes (`assembleFrame_onWire`). -/
theorem deliveredFramesCarryTheirChecksum : Obligations.DeliveredFramesCarryTheirChecksum := by
  intro s t f hexec hout
  cases hexec
  obtain ⟨v, n, sd, hw, hf, hlookup, hcrc, hconsumed⟩ :=
    rxDecide_eq_frame (OpOutcome.rx.inj (List.cons.inj hout).1)
  have hwire : f.OnWire (s.block.rxbuf.take n) := hf ▸ assembleFrame_onWire hw
  have hsound : f.payload.length = f.payloadLength.toNat := (hf ▸ assembleFrame_sound v _ : f.Sound).1
  have hversion : f.protocolVersion = v := hf ▸ assembleFrame_protocolVersion v _
  have hlen := candidate_take_length hw
  obtain ⟨hstart, hlenByte⟩ := hwire.byteAt_eq
  refine ⟨hsound, s.block.rxbuf.take n, sd, ?_, hwire, hstart, hversion ▸ hf, ?_, hlookup, ?_⟩
  · rw [State.finish_block, Block.rxStep_rxbuf, hconsumed, List.take_append_drop]
  · rw [hlen, hlenByte, hversion, hsound]
  · rw [← hcrc, checksumRegion_eq hlen]

/-! ## RXBUF is a queue (spec/10_state.md R22, spec/20_memory.md R38) -/

/-- Settles O40, by induction on the schedule: an accepted byte goes to the tail, a decision takes bytes off the
head, and nothing else moves. -/
theorem bytesLeaveInArrivalOrder : Obligations.BytesLeaveInArrivalOrder := by
  intro p actions
  induction actions with
  | nil => exact fun b => ⟨[], List.append_nil _⟩
  | cons a rest ih =>
    intro b
    cases a with
    | push x =>
      by_cases hfull : b.rxbuf.length = p.bufCap
      · rw [rxSchedule_push_full hfull]; exact ih b
      · obtain ⟨gone, hgone⟩ := ih { b with rxbuf := b.rxbuf ++ [x] }
        rw [rxSchedule_push_room hfull]
        exact ⟨gone, by rw [← hgone, List.append_assoc]; rfl⟩
    | step =>
      by_cases hw : wireHead b.rxbuf = .needMore
      · rw [rxSchedule_step_needMore hw]; exact ih b
      · obtain ⟨gone, hgone⟩ := ih (b.rxStep p).1
        rw [Block.rxStep_rxbuf] at hgone
        rw [rxSchedule_step_decided hw]
        refine ⟨b.rxbuf.take (rxDecide p.seed b.rxbuf).consumed ++ gone, ?_⟩
        rw [List.append_assoc, ← hgone, ← List.append_assoc, List.take_append_drop]

/-! ## What each operation writes (spec/10_state.md R10, R16, R17) -/

/-- From `b` to `b'` each counter has moved as the outcome `o` says, modulo `2 ^ w`, and not otherwise (R16, R17). -/
def OpOutcome.Counted (w : Nat) (b b' : Block) (o : OpOutcome) : Prop :=
  ((∃ f, o = .rx (.unknownMessage f)) → b'.cntUnknown = (b.cntUnknown + 1) % 2 ^ w) ∧
  ((¬ ∃ f, o = .rx (.unknownMessage f)) → b'.cntUnknown = b.cntUnknown) ∧
  (o = .rx .checksumError → b'.cntCksum = (b.cntCksum + 1) % 2 ^ w) ∧
  (o ≠ .rx .checksumError → b'.cntCksum = b.cntCksum)

/-- A decision carried out counts its own outcome (spec/41_rx_decode.md R102, R116). -/
theorem applyDecision_counted (w : Nat) (b : Block) (d : RxDecision) :
    (OpOutcome.rx d.outcome).Counted w b (b.applyDecision w d) := by
  obtain ⟨o, n⟩ := d
  cases o with
  | needMore => simp [OpOutcome.Counted, Block.applyDecision_needMore]
  | skip x => simp [OpOutcome.Counted, Block.applyDecision_skip]
  | frame f => simp [OpOutcome.Counted, Block.applyDecision_frame]
  | unknownMessage f => simp [OpOutcome.Counted, Block.applyDecision_unknownMessage]
  | checksumError => simp [OpOutcome.Counted, Block.applyDecision_checksumError]

/-- An outcome that is not RX.STEP's goes with counters that stay. -/
theorem counted_of_not_rx {w : Nat} {b b' : Block} {o : OpOutcome} (ho : ∀ r, o ≠ .rx r)
    (hunknown : b'.cntUnknown = b.cntUnknown) (hcksum : b'.cntCksum = b.cntCksum) : o.Counted w b b' :=
  ⟨fun ⟨_, h⟩ => absurd h (ho _), fun _ => hunknown, fun h => absurd h (ho _), fun _ => hcksum⟩

theorem txOutcome_ne_rx (seed : List Host.Cell) (r : TxOperands) (o : RxOutcome) : txOutcome seed r ≠ .rx o := by
  unfold txOutcome
  split <;> nofun

theorem csrOutcome_ne_rx (b : Block) (n : BitVec 4) (o : RxOutcome) : csrOutcome b n ≠ .rx o := by
  unfold csrOutcome
  split <;> nofun

/-- Every operation but RESET counts the outcome it returns, and no other. -/
theorem exec_counted {i : Instr} {s t : State} (hi : i ≠ .reset) (h : exec i s = .next t) :
    ∃ o, t.port.outcomes = o :: s.port.outcomes ∧ o.Counted s.params.cntW s.block t.block := by
  cases i with
  | frameV1 f =>
    obtain ⟨-, rfl⟩ := consumeCandidate_next h
    exact ⟨_, rfl, applyDecision_counted _ _ _⟩
  | frameV2 f =>
    obtain ⟨-, rfl⟩ := consumeCandidate_next h
    exact ⟨_, rfl, applyDecision_counted _ _ _⟩
  | reset => exact absurd rfl hi
  | crcInit => cases h; exact ⟨_, rfl, counted_of_not_rx nofun rfl rfl⟩
  | crcAcc b => cases h; exact ⟨_, rfl, counted_of_not_rx nofun rfl rfl⟩
  | crcRead => cases h; exact ⟨_, rfl, counted_of_not_rx nofun rfl rfl⟩
  | rxPush b =>
    cases h
    refine ⟨_, rfl, ?_⟩
    rw [State.finish_block]
    rcases Block.push_cases s.params.bufCap s.block b with ⟨-, hp⟩ | ⟨-, hp⟩ <;> rw [hp] <;>
      exact counted_of_not_rx nofun rfl rfl
  | rxStep => cases h; exact ⟨_, rfl, applyDecision_counted _ _ _⟩
  | txEncode r => cases h; exact ⟨_, rfl, counted_of_not_rx (txOutcome_ne_rx _ r) rfl rfl⟩
  | seqTake => cases h; exact ⟨_, rfl, counted_of_not_rx nofun rfl rfl⟩
  | csrRead n => cases h; exact ⟨_, rfl, counted_of_not_rx (csrOutcome_ne_rx _ n) rfl rfl⟩

/-- Settles O57: RESET clears both counters, every other operation counts its outcome (`exec_counted`). -/
theorem countersCountTheirOutcomes : Obligations.CountersCountTheirOutcomes := by
  intro i s t o h hout
  constructor
  · rintro rfl
    cases h
    exact ⟨rfl, rfl⟩
  · intro hi
    obtain ⟨o', hout', hcounted⟩ := exec_counted hi h
    obtain rfl : o = o' := (List.cons.inj (hout.symm.trans hout')).1
    exact hcounted

/-- RX.PUSH writes RXBUF alone (R10). -/
theorem Block.push_frame (cap : Nat) (b : Block) (x : Byte) :
    (b.push cap x).1 = { b with rxbuf := (b.push cap x).1.rxbuf } := by
  rcases Block.push_cases cap b x with ⟨-, hp⟩ | ⟨-, hp⟩ <;> rw [hp]

/-- Settles O58, operation by operation: of the items an operation may write nothing is to be shown, and every
other item is left as it was. -/
theorem stateIsWrittenOnlyByItsOperations : Obligations.StateIsWrittenOnlyByItsOperations := by
  intro i s t h
  cases i with
  | frameV1 f => obtain ⟨-, rfl⟩ := consumeCandidate_next h; simp
  | frameV2 f => obtain ⟨-, rfl⟩ := consumeCandidate_next h; simp
  | reset => cases h; simp
  | crcInit => cases h; simp
  | crcAcc b => cases h; simp
  | crcRead => cases h; simp
  | rxPush b => cases h; rw [State.finish_block, Block.push_frame]; simp
  | rxStep => cases h; simp
  | txEncode r => cases h; simp
  | seqTake => cases h; simp
  | csrRead n => cases h; simp

end Sys2Proof.Machine

namespace Sys2Proof.Machine

/-! ## One request, one operation, one outcome (spec/20_memory.md R36) -/

/-- A request taken is answered whatever its word is: by its operation's ending, or by BadOp where the word matches no
form. -/
theorem step_finish {s : State} {q : Request} {rest : List Request} (hp : s.port.pending = q :: rest) :
    ∃ b o, step s = .next ((s.withPending rest).finish b o) := by
  cases hd : decodeCommand q.word q.operands with
  | ok i =>
    rw [step_ok hp hd]
    obtain ⟨hv1, hv2⟩ := decodeCommand_ne_frame hd
    exact exec_operation_next i _ hv1 hv2
  | error e => exact ⟨_, _, step_error hp hd⟩

/-- Settles O6: what the step answers where the word decodes (`step_ok`). -/
theorem stepRunsTheDecodedInstruction : Obligations.StepRunsTheDecodedInstruction :=
  fun _ _ _ _ hp hd => step_ok hp hd

/-- Settles O10, by the one way a step ends with a request pending (`step_finish`). -/
theorem operationsCompleteOneAtATimeInOrder : Obligations.OperationsCompleteOneAtATimeInOrder := by
  intro s q rest hp
  obtain ⟨b, o, hs⟩ := step_finish hp
  exact ⟨_, o, hs, rfl, rfl, rfl⟩

/-! ## The wire formats act at the head alone (spec/20_memory.md R34, log entry 7) -/

theorem consumeCandidate_fault {v : Version} {bs : List Byte} {s : State} (h : ¬ bs <+: s.block.rxbuf) :
    consumeCandidate v bs s = .fault .candidateNotAtHead :=
  if_neg fun hp => h (List.isPrefixOf_iff_prefix.1 hp)

theorem consumeCandidate_of_prefix {v : Version} {bs : List Byte} {s : State} (h : bs <+: s.block.rxbuf) :
    consumeCandidate v bs s = .next (s.finish
      (s.block.applyDecision s.params.cntW (decideCandidate s.params.seed v bs))
      (.rx (decideCandidate s.params.seed v bs).outcome)) :=
  if_pos (List.isPrefixOf_iff_prefix.2 h)

/-- Settles O33: the two wire formats share one meaning, which faults where its bytes are not at the head
(`consumeCandidate_fault`). -/
theorem wireFrameInstructionsNeedTheirBytes : Obligations.WireFrameInstructionsNeedTheirBytes :=
  ⟨fun _ _ h => consumeCandidate_fault h, fun _ _ h => consumeCandidate_fault h⟩

/-! ## Consecutive sequence values (spec/20_memory.md R40, spec/42_tx_encode.md R138) -/

/-- One SEQ.TAKE and then `n` more take SEQ as far as `n + 1` do. -/
theorem ofNat_advance_add (q : Byte) (n : Nat) :
    BitVec.ofNat 8 ((q + 1#8).toNat + n) = BitVec.ofNat 8 (q.toNat + (n + 1)) := by
  apply BitVec.eq_of_toNat_eq
  simp only [BitVec.toNat_ofNat, BitVec.toNat_add]
  omega

/-- The values of `n + 1` SEQ.TAKEs are SEQ and then the `n` values from SEQ + 1 on. -/
theorem sequenceValues_succ (q : Byte) (n : Nat) :
    ((List.range (n + 1)).map fun k => OpOutcome.value ((q.toNat + k) % 256)) =
      .value q.toNat :: (List.range n).map fun k => .value (((q + 1#8).toNat + k) % 256) := by
  have hq : q.toNat % 256 = q.toNat := Nat.mod_eq_of_lt q.isLt
  have hnext : ∀ k, (q.toNat + (k + 1)) % 256 = ((q + 1#8).toNat + k) % 256 := by
    intro k
    simp only [BitVec.toNat_add, BitVec.toNat_ofNat]
    omega
  simp only [List.range_succ_eq_map, List.map_cons, List.map_map, Function.comp_def, Nat.add_zero, hq,
    Nat.succ_eq_add_one, hnext]

/-- Settles O53, by induction on the number of takes: the first returns SEQ and the others go on from SEQ + 1. -/
theorem sequenceValuesAreConsecutive : Obligations.SequenceValuesAreConsecutive := by
  intro n
  induction n with
  | zero =>
    intro s q rest hd hp
    refine ⟨s, rfl, rfl, hp, ?_, rfl⟩
    rw [Nat.add_zero, BitVec.ofNat_toNat, BitVec.setWidth_eq]
  | succ n ih =>
    intro s q rest hd hp
    obtain ⟨s₁, hstep, hs₁⟩ : ∃ s₁, step s = .next s₁ ∧
        s₁ = (s.withPending (List.replicate n q ++ rest)).finish s.block.advanceSeq (.value s.block.seq.toNat) :=
      ⟨_, step_ok hp hd, rfl⟩
    obtain ⟨t, hrun, hparams, hpending, hblock, houtcomes⟩ := ih s₁ q rest hd (by rw [hs₁]; rfl)
    subst hs₁
    refine ⟨t, (core_run_succ n hstep).trans hrun, hparams, hpending, ?_, ?_⟩
    · rw [hblock, State.finish_block, Block.advanceSeq_seq, ofNat_advance_add]
      rfl
    · rw [houtcomes, sequenceValues_succ]
      simp

/-! ## Receive schedules on the machine (spec/20_memory.md R36, R38) -/

/-- The receive outcomes so far, and the new one if it is an RX.STEP's other than NeedMore. -/
theorem State.receiveOutcomes_finish (s : State) (b : Block) (o : OpOutcome) :
    (s.finish b o).receiveOutcomes = s.receiveOutcomes ++ rxOutcomes [o] := by
  simp [State.receiveOutcomes]

/-- A pending RX.PUSH or RX.STEP is taken and ends as `Block.push` or `Block.rxStep` says. -/
theorem step_rxAction_push {s : State} {x : Byte} {rest : List Request}
    (hp : s.port.pending = (RxAction.push x).request :: rest) :
    step s = .next ((s.withPending rest).finish (s.block.push s.params.bufCap x).1
      (s.block.push s.params.bufCap x).2) :=
  step_ok hp (decode_request_rxPush x _)

theorem step_rxAction_step {s : State} {rest : List Request}
    (hp : s.port.pending = RxAction.step.request :: rest) :
    step s = .next ((s.withPending rest).finish (s.block.rxStep s.params).1 (.rx (s.block.rxStep s.params).2)) :=
  step_ok hp decode_request_rxStep

/-- One action of a schedule, then the rest from the block it leaves: what it adds to the outcomes stands before
theirs. -/
theorem step_rxAction (s : State) (a : RxAction) (actions : List RxAction)
    (hp : s.port.pending = (a :: actions).map RxAction.request) :
    ∃ b o, step s = .next ((s.withPending (actions.map RxAction.request)).finish b o) ∧
      (rxSchedule s.params (a :: actions) s.block).block = (rxSchedule s.params actions b).block ∧
      (rxSchedule s.params (a :: actions) s.block).outcomes =
        rxOutcomes [o] ++ (rxSchedule s.params actions b).outcomes := by
  cases a with
  | push x =>
    refine ⟨_, _, step_rxAction_push hp, rfl, ?_⟩
    rcases Block.push_cases s.params.bufCap s.block x with ⟨hfull, hpush⟩ | ⟨hroom, hpush⟩
    · rw [rxSchedule_push_full hfull, hpush]; rfl
    · rw [rxSchedule_push_room hroom, hpush]; rfl
  | step =>
    refine ⟨_, _, step_rxAction_step hp, rfl, ?_⟩
    by_cases hw : wireHead s.block.rxbuf = .needMore
    · rw [rxSchedule_step_needMore hw, Block.rxStep_needMore hw]; rfl
    · have hne : (s.block.rxStep s.params).2 ≠ .needMore := fun e => hw (rxDecide_needMore_iff.1 e)
      rw [rxSchedule_step_decided hw, rxOutcomes_decided hne]; rfl

/-- A schedule performed on the machine, whatever was returned before it. -/
theorem run_rxActions (actions : List RxAction) (s : State)
    (hp : s.port.pending = actions.map RxAction.request) :
    ∃ t, core.run actions.length s = .next t ∧ t.params = s.params ∧ t.port.pending = [] ∧
      t.block = (rxSchedule s.params actions s.block).block ∧
      t.receiveOutcomes = s.receiveOutcomes ++ (rxSchedule s.params actions s.block).outcomes := by
  induction actions generalizing s with
  | nil => exact ⟨s, rfl, rfl, hp, rfl, (List.append_nil _).symm⟩
  | cons a rest ih =>
    obtain ⟨b, o, hstep, hblock, houtcomes⟩ := step_rxAction s a rest hp
    obtain ⟨t, hrun, hparams, hpending, htblock, htoutcomes⟩ :=
      ih ((s.withPending (rest.map RxAction.request)).finish b o) rfl
    refine ⟨t, (core_run_succ _ hstep).trans hrun, hparams, hpending, htblock.trans hblock.symm, ?_⟩
    rw [htoutcomes, State.receiveOutcomes_finish, houtcomes, List.append_assoc]
    rfl

/-- Settles O39: the schedule's run (`run_rxActions`) from a state that has returned nothing yet. -/
theorem machinePerformsReceiveSchedules : Obligations.MachinePerformsReceiveSchedules := by
  intro s actions hp hout
  obtain ⟨t, hrun, hparams, hpending, hblock, houtcomes⟩ := run_rxActions actions s hp
  have hnone : s.receiveOutcomes = [] := by simp [State.receiveOutcomes, hout]
  exact ⟨t, hrun, hparams, hpending, hblock, by rw [houtcomes, hnone, List.nil_append]⟩

/-! ## The groups of operations share no state (spec/20_memory.md R37) -/

/-- `b` with the items of the group `g` taken from `src`. -/
def Block.withItems (b : Block) (g : OpGroup) (src : Block) : Block :=
  match g with
  | .receive => { b with cntUnknown := src.cntUnknown, cntCksum := src.cntCksum, rxbuf := src.rxbuf }
  | .transmit => { b with seq := src.seq }
  | .checksumPort => { b with acc := src.acc }
  | .all => src

theorem Block.withItems_self (b : Block) (g : OpGroup) : b.withItems g b = b := by
  cases g <;> rfl

/-- Different groups have no item in common, so the order of writing them does not matter. -/
theorem Block.withItems_comm {g g' : OpGroup} (hne : g ≠ g') (hg : g ≠ .all) (hg' : g' ≠ .all) (b x y : Block) :
    (b.withItems g x).withItems g' y = (b.withItems g' y).withItems g x := by
  cases g <;> cases g' <;> trivial

/-- A group's items are as they were where those of another group have been written. -/
theorem Block.withItems_withItems {g g' : OpGroup} (hne : g ≠ g') (hg : g ≠ .all) (hg' : g' ≠ .all)
    (b c x : Block) : b.withItems g (c.withItems g' x) = b.withItems g c := by
  cases g <;> cases g' <;> trivial

/-- A decision is carried out on the receive items alone. -/
theorem Block.applyDecision_withItems (w : Nat) (b c : Block) (d : RxDecision) :
    (c.withItems .receive b).applyDecision w d = c.withItems .receive (b.applyDecision w d) := by
  obtain ⟨o, n⟩ := d
  cases o <;> rfl

/-- RX.PUSH reads and writes the receive items alone. -/
theorem Block.push_withItems (cap : Nat) (b c : Block) (x : Byte) :
    (c.withItems .receive b).push cap x = (c.withItems .receive (b.push cap x).1, (b.push cap x).2) := by
  rcases Block.push_cases cap b x with ⟨hfull, hp⟩ | ⟨hroom, hp⟩
  · rw [hp]; exact if_pos hfull
  · rw [hp]; exact if_neg hroom

/-- RX.STEP reads and writes the receive items alone. -/
theorem Block.rxStep_withItems (p : Params) (b c : Block) :
    (c.withItems .receive b).rxStep p = (c.withItems .receive (b.rxStep p).1, (b.rxStep p).2) :=
  congrArg (·, (b.rxStep p).2) (Block.applyDecision_withItems p.cntW b c (rxDecide p.seed b.rxbuf))

/-- A register is an item of the group its CSR.READ belongs to; a reserved number reads nothing. -/
theorem Block.register_withItems (b c : Block) (n : BitVec 4) :
    (c.withItems (opGroup (.csrRead n)) b).register n = b.register n := by
  simp only [Block.register, opGroup]
  generalize n.toNat = k
  match k with
  | 0 | 1 | 2 | 3 | 4 => rfl
  | _ + 5 => rfl

theorem csrOutcome_withItems (b c : Block) (n : BitVec 4) :
    csrOutcome (c.withItems (opGroup (.csrRead n)) b) n = csrOutcome b n := by
  rw [csrOutcome, Block.register_withItems]
  rfl

/-- The instruction reads and writes the items of its group alone, as it does from `s` to `t`: wherever those items
are as in `s`, they become as in `t` and `o` is returned. -/
def ActsWithinGroup (i : Instr) (s t : State) (o : OpOutcome) : Prop :=
  ∀ (u : State) (c : Block), u.params = s.params → u.block = c.withItems (opGroup i) s.block →
    exec i u = .next (u.finish (c.withItems (opGroup i) t.block) o)

/-- What was done from `s` itself: the items of the other groups stay. -/
theorem ActsWithinGroup.exec_self {i : Instr} {s t : State} {o : OpOutcome} (h : ActsWithinGroup i s t o) :
    exec i s = .next (s.finish (s.block.withItems (opGroup i) t.block) o) :=
  h s s.block rfl (s.block.withItems_self _).symm

/-- The wire formats act within the receive group: their bytes are sought in RXBUF. -/
theorem consumeCandidate_withItems {v : Version} {bs : List Byte} {s t : State}
    (h : consumeCandidate v bs s = .next t) :
    ∃ o, ∀ (u : State) (c : Block), u.params = s.params → u.block = c.withItems .receive s.block →
      consumeCandidate v bs u = .next (u.finish (c.withItems .receive t.block) o) := by
  obtain ⟨hprefix, rfl⟩ := consumeCandidate_next h
  refine ⟨.rx (decideCandidate s.params.seed v bs).outcome, fun u c hparams hblock => ?_⟩
  have hu : bs <+: u.block.rxbuf := by rw [hblock]; exact hprefix
  rw [consumeCandidate_of_prefix hu, hparams, hblock, Block.applyDecision_withItems, State.finish_block]

/-- Every instruction acts within its group, RESET within the group of all items. -/
theorem exec_actsWithinGroup {i : Instr} {s t : State} (h : exec i s = .next t) : ∃ o, ActsWithinGroup i s t o := by
  cases i with
  | frameV1 f => exact consumeCandidate_withItems h
  | frameV2 f => exact consumeCandidate_withItems h
  | reset => cases h; exact ⟨.done, fun u c _ _ => rfl⟩
  | crcInit => cases h; exact ⟨.done, fun u c _ hb => by simp only [exec, execCrcInit, hb]; rfl⟩
  | crcAcc b => cases h; exact ⟨.done, fun u c _ hb => by simp only [exec, execCrcAcc, hb]; rfl⟩
  | crcRead =>
    cases h
    exact ⟨.value s.block.acc.toNat, fun u c _ hb => by simp only [exec, execCrcRead, hb]; rfl⟩
  | rxPush b =>
    cases h
    refine ⟨(s.block.push s.params.bufCap b).2, fun u c hp hb => ?_⟩
    simp only [exec, execRxPush, hp, hb, opGroup, Block.push_withItems, State.finish_block]
  | rxStep =>
    cases h
    refine ⟨.rx (s.block.rxStep s.params).2, fun u c hp hb => ?_⟩
    simp only [exec, execRxStep, hp, hb, opGroup, Block.rxStep_withItems, State.finish_block]
  | txEncode r =>
    cases h
    exact ⟨txOutcome s.params.seed r, fun u c hp hb => by simp only [exec, execTxEncode, hp, hb]; rfl⟩
  | seqTake =>
    cases h
    exact ⟨.value s.block.seq.toNat, fun u c _ hb => by simp only [exec, execSeqTake, hb]; rfl⟩
  | csrRead n =>
    cases h
    refine ⟨csrOutcome s.block n, fun u c _ hb => ?_⟩
    simp only [exec, execCsrRead, hb, csrOutcome_withItems, State.finish_block]

/-- Settles O60: each instruction acts within its group (`exec_actsWithinGroup`) and the groups have no item in
common, so either finds its items untouched by the other, and the two writes commute (`Block.withItems_comm`). -/
theorem operationsOfDifferentGroupsCommute : Obligations.OperationsOfDifferentGroupsCommute := by
  intro i j s t1 t2 hne hi hj h1 h2
  obtain ⟨oi, hacti⟩ := exec_actsWithinGroup h1
  obtain ⟨oj, hactj⟩ := exec_actsWithinGroup h2
  have ht1 : t1 = s.finish (s.block.withItems (opGroup i) t1.block) oi :=
    Host.Outcome.next.inj (h1.symm.trans hacti.exec_self)
  have ht2 : t2 = t1.finish (t1.block.withItems (opGroup j) t2.block) oj :=
    Host.Outcome.next.inj (h2.symm.trans hactj.exec_self)
  have hblock1 : t1.block = s.block.withItems (opGroup i) t1.block := congrArg State.block ht1
  have hblock2 : t2.block = t1.block.withItems (opGroup j) t2.block := congrArg State.block ht2
  have hparams : s.params = t1.params := (congrArg State.params ht1).symm
  have hjFirst : s.block = s.block.withItems (opGroup j) t1.block := by
    rw [hblock1, Block.withItems_withItems hne.symm hj hi, Block.withItems_self]
  have hiSecond : s.block.withItems (opGroup j) t2.block =
      (s.block.withItems (opGroup j) t2.block).withItems (opGroup i) s.block := by
    rw [← Block.withItems_comm hne hi hj, Block.withItems_self]
  refine ⟨_, _, oi, oj, hactj s s.block hparams hjFirst, hacti _ _ rfl hiSecond, ?_, ?_, ?_, rfl, rfl⟩
  · calc (s.block.withItems (opGroup j) t2.block).withItems (opGroup i) t1.block
        = (s.block.withItems (opGroup i) t1.block).withItems (opGroup j) t2.block :=
          (Block.withItems_comm hne hi hj _ _ _).symm
      _ = t2.block := by rw [← hblock1, ← hblock2]
  · exact congrArg (·.port.outcomes) ht1
  · exact congrArg (·.port.outcomes) ht2

end Sys2Proof.Machine

namespace Sys2Proof

/-! ## The wire decoder and the encoder are inverse (spec/30_encoding.md R52, R53, R55, R57) -/

/-- A frame's own bytes, with nothing behind them, are read back as the frame. -/
theorem parseV1_wireV1_self (f : FrameV1) (h : f.payload.length ≤ 255) : parseV1 (wireV1 f) = f := by
  have hparse := parseV1_wireV1 f [] h
  rwa [List.append_nil] at hparse

theorem decodeWire_wireV1 (f : FrameV1) (x : List Byte) (h : f.payload.length ≤ 255) :
    decodeWire (wireV1 f ++ x) = .ok (.frameV1 f, x) := by
  simp only [decodeWire, wireHead_wireV1 f x h, List.take_left, List.drop_left, parseWire, parseV1_wireV1_self f h]

theorem parseV2_wireV2_self (f : FrameV2) (h : f.payload.length ≤ 255) : parseV2 (wireV2 f) = f := by
  have hparse := parseV2_wireV2 f [] h
  rwa [List.append_nil] at hparse

theorem decodeWire_wireV2 (f : FrameV2) (x : List Byte) (h : f.payload.length ≤ 255) :
    decodeWire (wireV2 f ++ x) = .ok (.frameV2 f, x) := by
  simp only [decodeWire, wireHead_wireV2 f x h, List.take_left, List.drop_left, parseWire, parseV2_wireV2_self f h]

/-- Settles O3, one wire format each. -/
theorem wireDecodeConsumesExactlyTheFrame : Obligations.WireDecodeConsumesExactlyTheFrame :=
  ⟨decodeWire_wireV1, decodeWire_wireV2⟩

/-- The decoder reads an instruction only where a complete candidate stands at the head. -/
theorem decodeWire_ok {bytes x : List Byte} {i : Instr} (h : decodeWire bytes = .ok (i, x)) :
    ∃ v n, wireHead bytes = .candidate v n ∧ i = parseWire v (bytes.take n) ∧ x = bytes.drop n := by
  unfold decodeWire at h
  cases hw : wireHead bytes with
  | needMore => rw [hw] at h; cases h
  | skip b => rw [hw] at h; cases h
  | candidate v n => rw [hw] at h; cases h; exact ⟨v, n, rfl, rfl, rfl⟩

/-- Encoding the fields of a candidate written out byte by byte writes the same bytes (R52). -/
theorem wireV1_of_fields {len sq sys comp id lo hi : Byte} {p : List Byte} (hp : p.length = len.toNat) :
    wireV1 { sequence := sq, systemId := sys, componentId := comp, messageId := id, payload := p
             checksum := joinChecksum lo hi } =
      [0xFE#8, len, sq, sys, comp, id] ++ p ++ [lo, hi] := by
  simp only [wireV1, lenByte_eq hp, checksumBytes_joinChecksum]
  rfl

/-- The same of version 2 (R53). -/
theorem wireV2_of_fields {len fl0 fl1 sq sys comp id0 id1 id2 lo hi : Byte} {p : List Byte}
    (hp : p.length = len.toNat) :
    wireV2 { flag0 := fl0, flag1 := fl1, sequence := sq, systemId := sys, componentId := comp
             messageId := joinMsgId id0 id1 id2, payload := p, checksum := joinChecksum lo hi } =
      [0xFD#8, len, fl0, fl1, sq, sys, comp, id0, id1, id2] ++ p ++ [lo, hi] := by
  simp only [wireV2, headerV2, lenByte_eq hp, msgIdBytes_joinMsgId, checksumBytes_joinChecksum]
  rfl

/-- What is read from a candidate encodes to the candidate's own bytes (R55). -/
theorem encode_parseWire {bs : List Byte} {v : Version} {n : Nat} (h : wireHead bs = .candidate v n) :
    encode (parseWire v (bs.take n)) = .wire (bs.take n) := by
  rcases candidate_bytes h with
    ⟨rfl, len, sq, sys, comp, id, lo, hi, p, x, hp, rfl, rfl⟩ |
    ⟨rfl, len, fl0, fl1, sq, sys, comp, id0, id1, id2, lo, hi, p, x, hp, rfl, rfl⟩
  · have hparse := parseV1_bytes len sq sys comp id lo hi p [] hp
    rw [List.append_nil] at hparse
    rw [List.take_left, parseWire, hparse, encode, wireV1_of_fields hp]
  · have hparse := parseV2_bytes len fl0 fl1 sq sys comp id0 id1 id2 lo hi p [] hp
    rw [List.append_nil] at hparse
    rw [List.take_left, parseWire, hparse, encode, wireV2_of_fields hp]

/-- A payload read out of a frame has the length of its one-byte length field (spec/00_scope.md R7). -/
theorem wellFormed_parseWire (v : Version) (bs : List Byte) : WellFormed (parseWire v bs) = true := by
  cases v with
  | v1 => exact decide_eq_true (Machine.parseV1_payload_le bs)
  | v2 => exact decide_eq_true (Machine.parseV2_payload_le bs)

/-- Settles O4, by the candidate the decoder found (`decodeWire_ok`). -/
theorem wireDecodeLosesNoBit : Obligations.WireDecodeLosesNoBit := by
  intro bytes x i h
  obtain ⟨v, n, hw, rfl, rfl⟩ := decodeWire_ok h
  exact ⟨wellFormed_parseWire v _, bytes.take n, encode_parseWire hw, (List.take_append_drop n bytes).symm⟩

/-! ## The command decoder and the encoder are inverse (spec/30_encoding.md R61) -/

theorem decodeCommand_csrRead (n : BitVec 4) (r : TxOperands) :
    decodeCommand (0x800#12 ++ n) r = .ok (.csrRead n) := by
  have hfields : ∀ n : BitVec 4, (0x800#12 ++ n : Word).extractLsb' 8 4 = 0#4 ∧
      ((0x800#12 ++ n : Word).extractLsb' 12 4).toNat = 8 ∧
      (0x800#12 ++ n : Word).extractLsb' 4 4 = 0#4 ∧ (0x800#12 ++ n : Word).extractLsb' 0 4 = n := by decide
  obtain ⟨hreserved, hop, hhigh, hlow⟩ := hfields n
  simp [decodeCommand, hreserved, hop, hhigh, hlow]

/-- Settles O2: a wire format by its frame's bytes with nothing behind them, an operation by its command word. -/
theorem decodeInvertsEncode : Obligations.DecodeInvertsEncode := by
  intro i hi
  cases i with
  | frameV1 f =>
    have h := decodeWire_wireV1 f [] (of_decide_eq_true hi)
    rw [List.append_nil] at h
    simp only [encode, decode, h]
    rfl
  | frameV2 f =>
    have h := decodeWire_wireV2 f [] (of_decide_eq_true hi)
    rw [List.append_nil] at h
    simp only [encode, decode, h]
    rfl
  | reset => rfl
  | crcInit => rfl
  | crcAcc b => exact Machine.decode_request_crcAcc b _
  | crcRead => rfl
  | rxPush b => exact Machine.decode_request_rxPush b _
  | rxStep => rfl
  | txEncode r => rfl
  | seqTake => rfl
  | csrRead n => exact decodeCommand_csrRead n _

/-- Settles O1, each word by what the encoder writes for its operation. -/
theorem commandWordsDecodeAsTabulated : Obligations.CommandWordsDecodeAsTabulated := fun r =>
  ⟨rfl, Machine.decode_request_crcAcc 0x32#8 r, Machine.decode_request_rxPush 0xFE#8 r, rfl, rfl,
    decodeCommand_csrRead 4#4 r⟩

theorem noArg_ok_iff {arg : Byte} {i j : Instr} : noArg arg i = .ok j ↔ arg = 0#8 ∧ i = j := by
  unfold noArg
  split <;> simp [*]

/-- A word without reserved bits is its operation's number and its argument. -/
theorem word_of_op {w : Word} {op : Nat} (hreserved : w.extractLsb' 8 4 = 0#4)
    (hop : (w.extractLsb' 12 4).toNat = op) :
    w = (BitVec.ofNat 4 op ++ 0#4 : BitVec 8) ++ w.extractLsb' 0 8 := by
  rw [← hop, BitVec.ofNat_toNat, BitVec.setWidth_eq, ← hreserved]
  exact word_fields w

/-- The same of a word whose argument is zero: nothing of it is left open. -/
theorem word_of_op_noArg {w : Word} {op : Nat} (hreserved : w.extractLsb' 8 4 = 0#4)
    (hop : (w.extractLsb' 12 4).toNat = op) (harg : w.extractLsb' 0 8 = 0#8) :
    w = (BitVec.ofNat 4 op ++ 0#4 : BitVec 8) ++ 0#8 := by
  rw [← harg]
  exact word_of_op hreserved hop

/-- CSR.READ's word as its operation's number, the reserved bits and the two halves of its argument. -/
theorem csrRead_word (n : BitVec 4) :
    (0x800#12 ++ n : Word) = (BitVec.ofNat 4 8 ++ 0#4 : BitVec 8) ++ (0#4 ++ n : BitVec 8) := by
  revert n
  decide

/-- Settles O5: the operation's number, the reserved bits and the argument are all of the word (`word_fields`), and
the encoder writes the same three. -/
theorem commandWordsAreUnambiguous : Obligations.CommandWordsAreUnambiguous := by
  intro w r i h
  unfold decodeCommand at h
  simp only at h
  split at h
  · cases h
  next hreserved =>
    have hreserved : w.extractLsb' 8 4 = 0#4 := not_not.1 hreserved
    split at h
    case h_1 hop | h_2 hop | h_4 hop | h_6 hop | h_7 hop | h_8 hop =>
      obtain ⟨harg, rfl⟩ := noArg_ok_iff.1 h
      exact ⟨_, congrArg (Encoded.command · _) (word_of_op_noArg hreserved hop harg).symm⟩
    case h_3 hop | h_5 hop =>
      cases h
      exact ⟨_, congrArg (Encoded.command · _) (word_of_op hreserved hop).symm⟩
    case h_9 hop =>
      split at h
      · cases h
      next hhigh =>
        cases h
        have hw := word_of_op hreserved hop
        rw [arg_fields, not_not.1 hhigh] at hw
        exact ⟨_, congrArg (Encoded.command · _) ((csrRead_word _).trans hw.symm)⟩
    case h_10 => cases h

end Sys2Proof

namespace Sys2Proof.Machine

/-! ## The wire formats run as RX.STEP does (spec/41_rx_decode.md R101, R107 to R110; log entry 7) -/

/-- RX.STEP with a complete candidate at the head does what the wire format's meaning does with the candidate's
bytes. -/
theorem exec_rxStep_of_candidate {s : State} {v : Version} {w x : List Byte} (hbuf : s.block.rxbuf = w ++ x)
    (hw : wireHead (w ++ x) = .candidate v w.length) : exec .rxStep s = consumeCandidate v w s := by
  have hd : rxDecide s.params.seed s.block.rxbuf = decideCandidate s.params.seed v w := by
    rw [hbuf, rxDecide_of_candidate hw, List.take_left]
  rw [consumeCandidate_of_prefix (hbuf ▸ List.prefix_append w x), ← hd]
  rfl

/-- Settles O7: the frame's bytes are a complete candidate (`wireHead_wireV1`, `wireHead_wireV2`). -/
theorem stepRunsTheFrameAtTheHead : Obligations.StepRunsTheFrameAtTheHead := by
  intro s q rest i w x hp hd hi hencode hbuf
  rw [step_ok hp hd]
  cases i with
  | frameV1 f =>
    cases hencode
    exact exec_rxStep_of_candidate hbuf (wireHead_wireV1 f x (of_decide_eq_true hi))
  | frameV2 f =>
    cases hencode
    exact exec_rxStep_of_candidate hbuf (wireHead_wireV2 f x (of_decide_eq_true hi))
  | _ => cases hencode

/-- A wire format's meaning, with its bytes at the head, in the words of R108 to R110. -/
theorem consumeCandidate_eq_candidateResult {s : State} {v : Version} {w x : List Byte} (hne : w ≠ [])
    (hbuf : s.block.rxbuf = w ++ x) :
    consumeCandidate v w s = .next (candidateResult s (assembleFrame v w) (checksumRegion v w) w x) := by
  rw [consumeCandidate_of_prefix (hbuf ▸ List.prefix_append _ x)]
  rcases decideCandidate_cases s.params.seed v w with
    ⟨hl, hd⟩ | ⟨sd, hl, hc, hd⟩ | ⟨sd, hl, hc, hd⟩
  · simp only [hd, candidateResult, hl, Block.applyDecision_unknownMessage, hbuf, List.drop_left]
  · simp only [hd, candidateResult, hl, if_neg hc, Block.applyDecision_checksumError, hbuf,
      List.drop_one, List.tail_append_of_ne_nil hne]
  · simp only [hd, candidateResult, hl, if_pos hc, Block.applyDecision_frame, hbuf, List.drop_left]

/-- The checksum region of a written frame: its header after the start byte, and its payload (R54). -/
theorem checksumRegion_wireV1 (f : FrameV1) (h : f.payload.length ≤ 255) :
    checksumRegion .v1 (wireV1 f) =
      [lenByte f.payload, f.sequence, f.systemId, f.componentId, f.messageId] ++ f.payload := by
  have hlen : (byteAt (wireV1 f) 1).toNat = f.payload.length := lenByte_toNat h
  rw [checksumRegion, hlen, wireV1_bytes]
  exact slice_region 0xFE#8 (lenByte f.payload) [f.sequence, f.systemId, f.componentId, f.messageId] f.payload _ _

theorem checksumRegion_wireV2 (f : FrameV2) (h : f.payload.length ≤ 255) :
    checksumRegion .v2 (wireV2 f) =
      [lenByte f.payload, f.flag0, f.flag1, f.sequence, f.systemId, f.componentId,
        f.messageId.extractLsb' 0 8, f.messageId.extractLsb' 8 8, f.messageId.extractLsb' 16 8] ++ f.payload := by
  have hlen : (byteAt (wireV2 f) 1).toNat = f.payload.length := lenByte_toNat h
  rw [checksumRegion, hlen, wireV2_bytes]
  exact slice_region 0xFD#8 (lenByte f.payload) [f.flag0, f.flag1, f.sequence, f.systemId, f.componentId,
    f.messageId.extractLsb' 0 8, f.messageId.extractLsb' 8 8, f.messageId.extractLsb' 16 8] f.payload _ _

/-- RX.STEP assembles the very frame that was written (R55). -/
theorem assembleFrame_wireV1 (f : FrameV1) (h : f.payload.length ≤ 255) :
    assembleFrame .v1 (wireV1 f) = frameOfV1 f := by
  rw [assembleFrame, parseV1_wireV1_self f h]

theorem assembleFrame_wireV2 (f : FrameV2) (h : f.payload.length ≤ 255) :
    assembleFrame .v2 (wireV2 f) = frameOfV2 f := by
  rw [assembleFrame, parseV2_wireV2_self f h]

/-- Settles O32: the decision on the frame's bytes (`consumeCandidate_eq_candidateResult`), with the frame and the
checksum region they carry. -/
theorem wireFrameInstructionsComplete : Obligations.WireFrameInstructionsComplete := by
  constructor
  · intro s f x h hbuf
    have hexec := consumeCandidate_eq_candidateResult (v := .v1) (w := wireV1 f) (List.cons_ne_nil _ _) hbuf
    rw [assembleFrame_wireV1 f h, checksumRegion_wireV1 f h] at hexec
    exact hexec
  · intro s f x h hbuf
    have hexec := consumeCandidate_eq_candidateResult (v := .v2) (w := wireV2 f) (List.cons_ne_nil _ _) hbuf
    rw [assembleFrame_wireV2 f h, checksumRegion_wireV2 f h] at hexec
    exact hexec

end Sys2Proof.Machine

namespace Sys2Proof.Machine

/-! ## RX.FEED and the decoded stream (spec/30_encoding.md R63, spec/70_reset_and_hazards.md R195, R196) -/

/-- More fuel than bytes is as good as any other: every decision takes a byte (spec/41_rx_decode.md R118). -/
theorem decodeFor_fuel {seed : List Host.Cell} {n m : Nat} {buf : List Byte} (hn : buf.length < n)
    (hm : buf.length < m) : decodeFor seed n buf = decodeFor seed m buf := by
  induction n generalizing m buf with
  | zero => omega
  | succ n ih =>
    obtain ⟨m, rfl⟩ : ∃ k, m = k + 1 := ⟨m - 1, by omega⟩
    by_cases hw : wireHead buf = .needMore
    · rw [decodeFor_needMore hw, decodeFor_needMore hw]
    · obtain ⟨hpos, hle⟩ := rxDecide_consumed (seed := seed) hw
      have hrest : decodeFor seed n (buf.drop (rxDecide seed buf).consumed) =
          decodeFor seed m (buf.drop (rxDecide seed buf).consumed) :=
        ih (by rw [List.length_drop]; omega) (by rw [List.length_drop]; omega)
      rw [decodeFor_decided hw, decodeFor_decided hw, hrest]

theorem decodeStream_needMore {seed : List Host.Cell} {s : List Byte} (h : wireHead s = .needMore) :
    decodeStream seed s = [] ∧ streamRest seed s = s := by
  simp only [decodeStream, streamRest, decodeFor_needMore h, and_self]

theorem decodeStream_decided {seed : List Host.Cell} {s : List Byte} (h : wireHead s ≠ .needMore) :
    decodeStream seed s =
        (rxDecide seed s).outcome :: decodeStream seed (s.drop (rxDecide seed s).consumed) ∧
      streamRest seed s = streamRest seed (s.drop (rxDecide seed s).consumed) := by
  obtain ⟨hpos, hle⟩ := rxDecide_consumed (seed := seed) h
  have hfuel : decodeFor seed s.length (s.drop (rxDecide seed s).consumed) =
      decodeFor seed ((s.drop (rxDecide seed s).consumed).length + 1) (s.drop (rxDecide seed s).consumed) :=
    decodeFor_fuel (by rw [List.length_drop]; omega) (Nat.lt_succ_self _)
  simp only [decodeStream, streamRest, decodeFor_decided h, hfuel, and_self]

/-- Working on the buffer `s` has returned the outcomes `os` and left `s'`: whatever bytes follow, the stream decodes
to `os` and then as it does from `s'`. -/
def DecodesTo (seed : List Host.Cell) (s : List Byte) (os : List RxOutcome) (s' : List Byte) : Prop :=
  ∀ y, decodeStream seed (s ++ y) = os ++ decodeStream seed (s' ++ y) ∧
    streamRest seed (s ++ y) = streamRest seed (s' ++ y)

theorem DecodesTo.refl (seed : List Host.Cell) (s : List Byte) : DecodesTo seed s [] s :=
  fun _ => ⟨rfl, rfl⟩

theorem DecodesTo.trans {seed : List Host.Cell} {s s' s'' : List Byte} {os os' : List RxOutcome}
    (h : DecodesTo seed s os s') (h' : DecodesTo seed s' os' s'') : DecodesTo seed s (os ++ os') s'' := by
  intro y
  obtain ⟨hout, hrest⟩ := h y
  obtain ⟨hout', hrest'⟩ := h' y
  exact ⟨by rw [hout, hout', List.append_assoc], hrest.trans hrest'⟩

/-- Bytes that arrive later stay behind what was left. -/
theorem DecodesTo.append {seed : List Host.Cell} {s s' : List Byte} {os : List RxOutcome}
    (h : DecodesTo seed s os s') (x : List Byte) : DecodesTo seed (s ++ x) os (s' ++ x) := by
  intro y
  rw [List.append_assoc, List.append_assoc]
  exact h (x ++ y)

/-- A buffer that waits for more has returned all that its stream decodes to. -/
theorem DecodesTo.stream_eq {seed : List Host.Cell} {s s' : List Byte} {os : List RxOutcome}
    (h : DecodesTo seed s os s') (hw : wireHead s' = .needMore) :
    os = decodeStream seed s ∧ s' = streamRest seed s := by
  obtain ⟨hout, hrest⟩ := h []
  obtain ⟨hnone, hself⟩ := decodeStream_needMore (seed := seed) hw
  rw [List.append_nil, List.append_nil] at hout hrest
  exact ⟨by rw [hout, hnone, List.append_nil], by rw [hrest, hself]⟩

/-- One RX.STEP that decides; later bytes do not change the decision (spec/41_rx_decode.md R119). -/
theorem Block.rxStep_decodesTo (p : Params) {b : Block} (h : wireHead b.rxbuf ≠ .needMore) :
    DecodesTo p.seed b.rxbuf [(b.rxStep p).2] (b.rxStep p).1.rxbuf := by
  intro y
  have hy : wireHead (b.rxbuf ++ y) ≠ .needMore := by rwa [wireHead_append y h]
  have hd := decodeStream_decided (seed := p.seed) hy
  have hle := (rxDecide_consumed (seed := p.seed) h).2
  rw [rxDecide_append y h, List.drop_append_of_le_length hle] at hd
  rw [Block.rxStep_outcome, Block.rxStep_rxbuf]
  exact hd

/-! ### A full buffer decides (R195) -/

/-- A buffer as long as the longest frame never waits. -/
theorem wireHead_of_maxFrame_le {buf : List Byte} (h : maxFrame ≤ buf.length) : wireHead buf ≠ .needMore := by
  intro hw
  rcases wireHead_needMore_iff.1 hw with rfl | ⟨v, rest, -, hlt⟩
  · exact absurd h (by decide)
  · have := frameLen_le_maxFrame v (byteAt buf 1)
    omega

/-- One RX.STEP makes room in a full buffer. -/
theorem Block.rxStep_makes_room {p : Params} {b : Block} (hcap : maxFrame ≤ p.bufCap)
    (hfull : b.rxbuf.length = p.bufCap) : (b.rxStep p).1.rxbuf.length ≠ p.bufCap := by
  have hpos := (rxDecide_consumed (seed := p.seed) (wireHead_of_maxFrame_le (hfull ▸ hcap))).1
  have hmax : 0 < maxFrame := by decide
  rw [Block.rxStep_rxbuf, List.length_drop]
  omega

/-- A byte fed to a full buffer: one RX.STEP, and the byte is taken. -/
theorem Block.feedByte_full_eq {p : Params} {n : Nat} {x : Byte} {b : Block} (hcap : maxFrame ≤ p.bufCap)
    (hfull : b.rxbuf.length = p.bufCap) :
    b.feedByte p (n + 2) x =
      ({ (b.rxStep p).1 with rxbuf := (b.rxStep p).1.rxbuf ++ [x] }, [(b.rxStep p).2]) := by
  rw [Block.feedByte_full hfull, Block.feedByte_room (Block.rxStep_makes_room hcap hfull)]

/-! ### Feeding, step by step -/

theorem Block.feedByte_decodesTo {p : Params} (hcap : maxFrame ≤ p.bufCap) (n : Nat) (x : Byte) (b : Block) :
    DecodesTo p.seed (b.rxbuf ++ [x]) (b.feedByte p (n + 2) x).2 (b.feedByte p (n + 2) x).1.rxbuf := by
  by_cases hfull : b.rxbuf.length = p.bufCap
  · rw [Block.feedByte_full_eq hcap hfull]
    exact (b.rxStep_decodesTo p (wireHead_of_maxFrame_le (hfull ▸ hcap))).append [x]
  · rw [Block.feedByte_room hfull]
    exact .refl p.seed _

theorem Block.feedBytes_decodesTo {p : Params} (hcap : maxFrame ≤ p.bufCap) (bytes : List Byte) (b : Block) :
    DecodesTo p.seed (b.rxbuf ++ bytes) (b.feedBytes p bytes).2 (b.feedBytes p bytes).1.rxbuf := by
  induction bytes generalizing b with
  | nil => rw [List.append_nil]; exact .refl p.seed _
  | cons x rest ih =>
    have hx := (Block.feedByte_decodesTo hcap b.rxLen x b).append rest
    rw [List.append_assoc, List.singleton_append] at hx
    exact hx.trans (ih _)

/-- A drain ends with a buffer that waits for more, its fuel being more than the bytes buffered. -/
theorem Block.drainFor_decodesTo (p : Params) {n : Nat} {b : Block} (hn : b.rxbuf.length < n) :
    DecodesTo p.seed b.rxbuf (b.drainFor p n).2 (b.drainFor p n).1.rxbuf ∧
      wireHead (b.drainFor p n).1.rxbuf = .needMore := by
  induction n generalizing b with
  | zero => omega
  | succ n ih =>
    by_cases hw : wireHead b.rxbuf = .needMore
    · rw [Block.drainFor_needMore hw]
      exact ⟨.refl p.seed _, hw⟩
    · obtain ⟨hpos, hle⟩ := rxDecide_consumed (seed := p.seed) hw
      obtain ⟨hdec, hwait⟩ := ih (b := (b.rxStep p).1) (by rw [Block.rxStep_rxbuf, List.length_drop]; omega)
      rw [Block.drainFor_decided hw]
      exact ⟨(b.rxStep_decodesTo p hw).trans hdec, hwait⟩

theorem Block.feed_decodesTo {p : Params} (hcap : maxFrame ≤ p.bufCap) (bytes : List Byte) (b : Block) :
    DecodesTo p.seed (b.rxbuf ++ bytes) (b.feed p bytes).2 (b.feed p bytes).1.rxbuf ∧
      wireHead (b.feed p bytes).1.rxbuf = .needMore := by
  obtain ⟨hdec, hwait⟩ := Block.drainFor_decodesTo p (Nat.lt_succ_self (b.feedBytes p bytes).1.rxLen)
  exact ⟨(Block.feedBytes_decodesTo hcap bytes b).trans hdec, hwait⟩

theorem Block.feedAll_decodesTo {p : Params} (hcap : maxFrame ≤ p.bufCap) (chunks : List (List Byte)) (b : Block)
    (hb : wireHead b.rxbuf = .needMore) :
    DecodesTo p.seed (b.rxbuf ++ chunks.flatten) (b.feedAll p chunks).2 (b.feedAll p chunks).1.rxbuf ∧
      wireHead (b.feedAll p chunks).1.rxbuf = .needMore := by
  induction chunks generalizing b with
  | nil => rw [List.flatten_nil, List.append_nil]; exact ⟨.refl p.seed _, hb⟩
  | cons c rest ih =>
    obtain ⟨hfeed, hwait⟩ := Block.feed_decodesTo hcap c b
    obtain ⟨hrest, hend⟩ := ih _ hwait
    have hc := hfeed.append rest.flatten
    rw [List.append_assoc, ← List.flatten_cons] at hc
    exact ⟨hc.trans hrest, hend⟩

/-- The chunks are the bytes cut up, none lost or repeated. -/
theorem chunksOf_flatten {k fuel : Nat} {bytes : List Byte} (hk : 1 ≤ k) (hfuel : bytes.length ≤ fuel) :
    (chunksOf k fuel bytes).flatten = bytes := by
  induction fuel generalizing bytes with
  | zero => exact (List.length_eq_zero_iff.1 (by omega)).symm
  | succ n ih =>
    cases bytes with
    | nil => rfl
    | cons x rest =>
      have htail : (chunksOf k n ((x :: rest).drop k)).flatten = (x :: rest).drop k :=
        ih (by rw [List.length_drop, List.length_cons] at *; omega)
      show ((x :: rest).take k :: chunksOf k n ((x :: rest).drop k)).flatten = x :: rest
      rw [List.flatten_cons, htail, List.take_append_drop]

/-- Settles O42: what a feed works through, in one piece or in chunks, is the stream of its bytes, and it ends with
a buffer that waits for more (`DecodesTo.stream_eq`). -/
theorem feedingIgnoresCapacityAndChunks : Obligations.FeedingIgnoresCapacityAndChunks := by
  intro p b bytes k hcap hk hempty
  have hwait : wireHead b.rxbuf = .needMore := by rw [hempty]; exact wireHead_nil
  obtain ⟨hfeed, hfeedEnd⟩ := Block.feed_decodesTo hcap bytes b
  obtain ⟨hall, hallEnd⟩ := Block.feedAll_decodesTo hcap (chunksOf k bytes.length bytes) b hwait
  rw [chunksOf_flatten hk le_rfl] at hall
  rw [hempty, List.nil_append] at hfeed hall
  obtain ⟨hout, hrest⟩ := hfeed.stream_eq hfeedEnd
  obtain ⟨hout', hrest'⟩ := hall.stream_eq hallEnd
  exact ⟨hout, hrest, hout', hrest'⟩

end Sys2Proof.Machine

namespace Sys2Proof.Machine

/-! ## A script among other traffic (spec/30_encoding.md R63, log entry 23) -/

/-- Whatever operation the request asks for keeps the property `P` of the block. -/
def Request.Keeps (P : Block → Prop) (q : Request) : Prop :=
  ∀ (i : Instr) (s t : State), decodeCommand q.word q.operands = .ok i → exec i s = .next t → P s.block → P t.block

theorem Request.keeps_true (q : Request) : q.Keeps fun _ => True :=
  fun _ _ _ _ _ _ => trivial

/-- A word of no form changes nothing of the block, so a step on a request that keeps `P` keeps it. -/
theorem step_keeps {P : Block → Prop} {s : State} {q : Request} {rest : List Request}
    (hp : s.port.pending = q :: rest) (hq : q.Keeps P) (hs : P s.block) :
    ∃ b o, step s = .next ((s.withPending rest).finish b o) ∧ P b := by
  obtain ⟨b, o, hstep⟩ := step_finish hp
  refine ⟨b, o, hstep, ?_⟩
  cases hd : decodeCommand q.word q.operands with
  | ok i =>
    rw [step_ok hp hd] at hstep
    exact hq i _ _ hd hstep hs
  | error e =>
    have hblock : s.block = b :=
      congrArg State.block (Host.Outcome.next.inj ((step_error hp hd).symm.trans hstep))
    exact hblock ▸ hs

/-- The requests of other agents are performed, the parameters and what was pending behind them stay, and so does
every property of the block that each of them keeps. -/
theorem run_requests {P : Block → Prop} (reqs rest : List Request) (s : State) (hp : s.port.pending = reqs ++ rest)
    (hkeep : ∀ q ∈ reqs, q.Keeps P) (hs : P s.block) :
    ∃ u : State, core.run reqs.length s = .next u ∧ u.params = s.params ∧ u.port.pending = rest ∧ P u.block := by
  induction reqs generalizing s with
  | nil => exact ⟨s, rfl, rfl, hp, hs⟩
  | cons q reqs ih =>
    obtain ⟨hq, hreqs⟩ := List.forall_mem_cons.1 hkeep
    obtain ⟨b, o, hstep, hb⟩ := step_keeps hp hq hs
    obtain ⟨u, hrun, hparams, hpending, hu⟩ := ih ((s.withPending (reqs ++ rest)).finish b o) rfl hreqs hb
    exact ⟨u, (core_run_succ _ hstep).trans hrun, hparams, hpending, hu⟩

/-- The other agents' part of a turn. -/
theorem run_others {P : Block → Prop} (others : List Request) (s : State) (hkeep : ∀ q ∈ others, q.Keeps P)
    (hs : P s.block) :
    ∃ u : State, core.run others.length (s.withPending (others ++ s.port.pending)) = .next u ∧ u.params = s.params ∧
      u.port.pending = s.port.pending ∧ P u.block :=
  run_requests others s.port.pending (s.withPending (others ++ s.port.pending)) rfl hkeep hs

/-- A request put before all others is performed on the state as it is. -/
theorem step_placed {u : State} {q : Request} {i : Instr} (hd : decodeCommand q.word q.operands = .ok i) :
    step (u.withPending (q :: u.port.pending)) = exec i u :=
  step_ok rfl hd

/-- A turn of a script that asks for the operation `i`: after the others' operations `i` is performed, and the script
goes on with its outcome. -/
theorem Script.turn_exec {others : List Request} {c : Script} {s u : State} {q : Request} {i : Instr} {b : Block}
    {o : OpOutcome} (hu : core.run others.length (s.withPending (others ++ s.port.pending)) = .next u)
    (hc : c.request = some q) (hd : decodeCommand q.word q.operands = .ok i)
    (hexec : exec i u = .next (u.finish b o)) : c.turn others s = .next (c.advance o, u.finish b o) :=
  Script.turn_own hu hc ((step_placed hd).trans hexec)

/-- A turn of an operation whose outcome is not part of the result. -/
theorem Script.turn_issue {others : List Request} {s u : State} {q : Request} {i : Instr} {b : Block} {o : OpOutcome}
    (rest : List ScriptTask) (kept : List OpOutcome)
    (hu : core.run others.length (s.withPending (others ++ s.port.pending)) = .next u)
    (hd : decodeCommand q.word q.operands = .ok i) (hexec : exec i u = .next (u.finish b o)) :
    Script.turn others { tasks := .issue q :: rest, kept := kept } s =
      .next ({ tasks := rest, kept := kept }, u.finish b o) := by
  have hturn := Script.turn_exec (c := { tasks := .issue q :: rest, kept := kept }) hu rfl hd hexec
  rwa [Script.advance_issue] at hturn

/-! ## TX.SEND (spec/20_memory.md R40, spec/70_reset_and_hazards.md R204) -/

/-- The first turn: the value SEQ has after the others' operations is taken into the request to come. -/
theorem Script.turn_send {others : List Request} {s u : State} (r : TxOperands) (rest : List ScriptTask)
    (kept : List OpOutcome) (hu : core.run others.length (s.withPending (others ++ s.port.pending)) = .next u) :
    Script.turn others { tasks := .send r :: rest, kept := kept } s =
      .next ({ tasks := .keep (Request.txEncode { r with sequence := u.block.seq }) :: rest, kept := kept },
        u.finish u.block.advanceSeq (.value u.block.seq.toNat)) := by
  have hturn := Script.turn_exec (c := { tasks := .send r :: rest, kept := kept }) (i := .seqTake) hu rfl
    decode_request_seqTake rfl
  rw [Script.advance_send, BitVec.ofNat_toNat, BitVec.setWidth_eq] at hturn
  exact hturn

/-- The second turn: the outcome of TX.ENCODE is the script's result. -/
theorem Script.turn_txEncode {others : List Request} {s u : State} (r : TxOperands) (rest : List ScriptTask)
    (kept : List OpOutcome) (hu : core.run others.length (s.withPending (others ++ s.port.pending)) = .next u) :
    Script.turn others { tasks := .keep (Request.txEncode r) :: rest, kept := kept } s =
      .next ({ tasks := rest, kept := kept ++ [txOutcome u.params.seed r] },
        u.finish u.block (txOutcome u.params.seed r)) :=
  Script.turn_exec (i := .txEncode r) hu rfl (decode_request_txEncode r) rfl

/-- Settles O55, turn by turn; the value taken stands in the second request, out of the others' reach. -/
theorem interleavedSendCarriesTheValueItTook : Obligations.InterleavedSendCarriesTheValueItTook := by
  intro s r before between
  obtain ⟨u, hrun, hparams, hpending, -⟩ := run_others before s (fun q _ => q.keeps_true) trivial
  have hsend := Script.turn_send r [] [] hrun
  obtain ⟨w, hrun', hparams', hpending', -⟩ :=
    run_others between (u.finish u.block.advanceSeq (.value u.block.seq.toNat)) (fun q _ => q.keeps_true) trivial
  have hseed : w.params.seed = s.params.seed := congrArg Params.seed (hparams'.trans hparams)
  have hencode := Script.turn_txEncode { r with sequence := u.block.seq } [] [] hrun'
  rw [hseed] at hencode
  refine ⟨u, _, hrun, (Script.perform_cons hsend).trans (Script.perform_cons hencode),
    hparams'.trans hparams, hpending'.trans hpending, ?_⟩
  rintro rfl
  cases hrun'
  rfl

end Sys2Proof.Machine

namespace Sys2Proof.Machine

/-! ## CRC16 on the checksum port (spec/30_encoding.md R63, spec/40_checksum.md R88 to R91) -/

theorem decode_request_crcInit :
    decodeCommand (Request.ofWord 0x1000#16).word (Request.ofWord 0x1000#16).operands = .ok .crcInit := rfl

theorem decode_request_crcRead :
    decodeCommand (Request.ofWord 0x3000#16).word (Request.ofWord 0x3000#16).operands = .ok .crcRead := rfl

/-- The seed is folded in as one byte more (R84). -/
theorem crcFold_append_singleton (a : Word) (s : List Byte) (b : Byte) :
    crcFold a (s ++ [b]) = crcStep (crcFold a s) b := by
  induction s generalizing a with
  | nil => rfl
  | cons x rest ih => exact ih _

theorem crc16_eq_crcFold (s : List Byte) (seed : Byte) : crc16 s seed = crcFold crcInitValue (s ++ [seed]) :=
  (crcFold_append_singleton crcInitValue s seed).symm

/-- CRC.ACC for each byte and a CRC.READ: ACC is folded over the bytes and read. -/
theorem run_crcAccs_crcRead (bytes : List Byte) (s : State) (rest : List Request)
    (hp : s.port.pending = bytes.map Request.crcAcc ++ Request.ofWord 0x3000#16 :: rest) :
    ∃ t, core.run (bytes.length + 1) s = .next t ∧ t.params = s.params ∧
      t.block = { s.block with acc := crcFold s.block.acc bytes } ∧ t.port.pending = rest ∧
      t.port.outcomes =
        .value (crcFold s.block.acc bytes).toNat :: List.replicate bytes.length .done ++ s.port.outcomes := by
  induction bytes generalizing s with
  | nil => exact ⟨_, core_run_succ 0 (step_ok hp decode_request_crcRead), rfl, rfl, rfl, rfl⟩
  | cons b bytes ih =>
    obtain ⟨t, hrun, hparams, hblock, hpending, houtcomes⟩ := ih
      ((s.withPending (bytes.map Request.crcAcc ++ Request.ofWord 0x3000#16 :: rest)).finish
        { s.block with acc := crcStep s.block.acc b } .done) rfl
    have hstep := step_ok hp (decode_request_crcAcc b _)
    refine ⟨t, (core_run_succ _ hstep).trans hrun, hparams, hblock, hpending, houtcomes.trans ?_⟩
    simp [List.replicate_succ']

/-- Settles O26: CRC.INIT, then the bytes with the seed behind them (`run_crcAccs_crcRead`). -/
theorem checksumPortComputesTheFrameChecksum : Obligations.ChecksumPortComputesTheFrameChecksum := by
  intro s bytes seed rest hp
  have hreqs : crc16Requests bytes seed ++ rest = Request.ofWord 0x1000#16 ::
      ((bytes ++ [seed]).map Request.crcAcc ++ Request.ofWord 0x3000#16 :: rest) := by
    simp [crc16Requests]
  have hstep := step_ok (hp.trans hreqs) decode_request_crcInit
  obtain ⟨t, hrun, hparams, hblock, hpending, houtcomes⟩ := run_crcAccs_crcRead (bytes ++ [seed])
    ((s.withPending _).finish { s.block with acc := crcInitValue } .done) rest rfl
  rw [List.length_append, List.length_singleton] at hrun houtcomes
  rw [State.finish_block, ← crc16_eq_crcFold] at hblock houtcomes
  refine ⟨t, (core_run_succ _ hstep).trans hrun, hparams, hblock, hpending, houtcomes.trans ?_⟩
  simp [List.replicate_succ' (n := bytes.length + 1)]

/-- A request that writes no ACC keeps its value (spec/10_state.md R10). -/
theorem Request.keeps_acc {q : Request} (h : q.writesAcc = none) (a : Word) : q.Keeps fun b => b.acc = a := by
  intro i s t hd hexec hs
  by_contra hne
  have hchanged : t.block.acc ≠ s.block.acc := fun e => hne (e.trans hs)
  rw [Request.writesAcc, hd] at h
  obtain ⟨-, hwriters, -⟩ := stateIsWrittenOnlyByItsOperations i s t hexec
  rcases hwriters hchanged with rfl | rfl | ⟨b, rfl⟩ <;> cases h

/-- Other agents' operations that do not write ACC leave it as the script's next operation expects it. -/
theorem run_others_acc {others : List Request} (s : State) (hothers : ∀ q ∈ others, q.writesAcc = none) :
    ∃ u : State, core.run others.length (s.withPending (others ++ s.port.pending)) = .next u ∧ u.params = s.params ∧
      u.port.pending = s.port.pending ∧ u.block.acc = s.block.acc :=
  run_others others s (fun q hq => q.keeps_acc (hothers q hq) s.block.acc) rfl

/-- The CRC.ACCs and the CRC.READ of a script among traffic that does not write ACC. -/
theorem perform_crcAccs_crcRead (bytes : List Byte) (turns : List (List Request)) (s : State)
    (hlen : turns.length = bytes.length + 1) (hturns : ∀ others ∈ turns, ∀ q ∈ others, q.writesAcc = none) :
    ∃ t, Script.perform turns
          { tasks := bytes.map (fun b => .issue (Request.crcAcc b)) ++ [.keep (Request.ofWord 0x3000#16)]
            kept := [] } s =
        .next ({ tasks := [], kept := [.value (crcFold s.block.acc bytes).toNat] }, t) ∧
      t.block.acc = crcFold s.block.acc bytes ∧ t.params = s.params ∧ t.port.pending = s.port.pending := by
  induction bytes generalizing turns s with
  | nil =>
    obtain ⟨others, rfl⟩ := List.length_eq_one_iff.1 hlen
    obtain ⟨u, hrun, hparams, hpending, hacc⟩ := run_others_acc s (hturns others (List.mem_singleton_self _))
    have hturn := Script.turn_exec (c := { tasks := [.keep (Request.ofWord 0x3000#16)], kept := [] })
      hrun rfl decode_request_crcRead rfl
    rw [hacc] at hturn
    exact ⟨_, Script.perform_cons hturn, hacc, hparams, hpending⟩
  | cons b bytes ih =>
    obtain ⟨others, turns, rfl⟩ := List.exists_cons_of_length_eq_add_one hlen
    obtain ⟨hothers, hturns⟩ := List.forall_mem_cons.1 hturns
    obtain ⟨u, hrun, hparams, hpending, hacc⟩ := run_others_acc s hothers
    obtain ⟨t, hperform, htacc, htparams, htpending⟩ :=
      ih turns (u.finish { u.block with acc := crcStep u.block.acc b } .done) (Nat.succ.inj hlen) hturns
    rw [← hacc]
    exact ⟨t, (Script.perform_cons (Script.turn_issue _ _ hrun (decode_request_crcAcc b _) rfl)).trans hperform,
      htacc, htparams.trans hparams, htpending.trans hpending⟩

/-- Settles O27: CRC.INIT's turn, then those of the bytes with the seed behind them (`perform_crcAccs_crcRead`). -/
theorem interleavedChecksumExpansionKeepsItsResult : Obligations.InterleavedChecksumExpansionKeepsItsResult := by
  intro s bytes seed turns hlen hturns
  have htasks : Script.crc16 bytes seed =
      { tasks := .issue (Request.ofWord 0x1000#16) ::
          ((bytes ++ [seed]).map (fun b => .issue (Request.crcAcc b)) ++ [.keep (Request.ofWord 0x3000#16)])
        kept := [] } := by
    simp [Script.crc16, Script.start]
  obtain ⟨others, turns, rfl⟩ := List.exists_cons_of_length_eq_add_one hlen
  obtain ⟨hothers, hturns⟩ := List.forall_mem_cons.1 hturns
  obtain ⟨u, hrun, hparams, hpending, -⟩ := run_others_acc s hothers
  obtain ⟨t, hperform, htacc, htparams, htpending⟩ := perform_crcAccs_crcRead (bytes ++ [seed]) turns
    (u.finish { u.block with acc := crcInitValue } .done)
    (by rw [List.length_append, List.length_singleton]; exact Nat.succ.inj hlen) hturns
  rw [State.finish_block, ← crc16_eq_crcFold] at hperform htacc
  rw [htasks]
  exact ⟨t, (Script.perform_cons (Script.turn_issue _ _ hrun decode_request_crcInit rfl)).trans hperform,
    htacc, htparams.trans hparams, htpending.trans hpending⟩

end Sys2Proof.Machine

namespace Sys2Proof.Machine

/-! ## The receive expansions among operations outside their group (spec/20_memory.md R37) -/

/-- `b` has the items of the group `g` as `src` has them. -/
def Block.SharesItems (g : OpGroup) (b src : Block) : Prop := b.withItems g src = b

theorem Block.sharesItems_self (g : OpGroup) (b : Block) : b.SharesItems g b := Block.withItems_self b g

theorem Block.withItems_sharesItems (g : OpGroup) (b src : Block) : (b.withItems g src).SharesItems g src := by
  cases g <;> rfl

theorem Block.SharesItems.receive {b src : Block} (h : b.SharesItems .receive src) :
    b.rxbuf = src.rxbuf ∧ b.cntUnknown = src.cntUnknown ∧ b.cntCksum = src.cntCksum :=
  ⟨(congrArg Block.rxbuf h).symm, (congrArg Block.cntUnknown h).symm, (congrArg Block.cntCksum h).symm⟩

/-- An operation outside a group leaves that group's items alone. -/
theorem Request.Outside.keeps_items {g : OpGroup} {q : Request} (hq : q.Outside g) (hg : g ≠ .all) (src : Block) :
    q.Keeps fun b => b.SharesItems g src := by
  intro i s t hd hexec hs
  obtain ⟨hne, hall⟩ := hq i hd
  obtain ⟨o, hact⟩ := exec_actsWithinGroup hexec
  have hblock : t.block = s.block.withItems (opGroup i) t.block :=
    congrArg State.block (Host.Outcome.next.inj (hexec.symm.trans hact.exec_self))
  show t.block.withItems g src = t.block
  rw [hblock, Block.withItems_comm hne hall hg, show s.block.withItems g src = s.block from hs]

/-- What RX.PUSH or RX.STEP makes of a block, and its outcome. -/
def RxAction.result (a : RxAction) (p : Params) (b : Block) : Block × OpOutcome :=
  match a with
  | .push x => b.push p.bufCap x
  | .step => ((b.rxStep p).1, .rx (b.rxStep p).2)

theorem RxAction.result_push_room {p : Params} {x : Byte} {b : Block} (h : b.rxbuf.length ≠ p.bufCap) :
    (RxAction.push x).result p b = ({ b with rxbuf := b.rxbuf ++ [x] }, .pushOk) :=
  (Block.push_cases p.bufCap b x).elim (fun e => absurd e.1 h) fun e => e.2

theorem RxAction.result_push_full {p : Params} {x : Byte} {b : Block} (h : b.rxbuf.length = p.bufCap) :
    (RxAction.push x).result p b = (b, .pushRefused) :=
  (Block.push_cases p.bufCap b x).elim (fun e => e.2) fun e => absurd h e.1

theorem RxAction.result_step_needMore {p : Params} {b : Block} (h : wireHead b.rxbuf = .needMore) :
    RxAction.step.result p b = (b, .rx .needMore) := by
  rw [RxAction.result, Block.rxStep_needMore h]

/-- The operation of the action. -/
def RxAction.instr (a : RxAction) : Instr :=
  match a with
  | .push x => .rxPush x
  | .step => .rxStep

theorem RxAction.decode_request (a : RxAction) :
    decodeCommand a.request.word a.request.operands = .ok a.instr := by
  cases a with
  | push x => exact decode_request_rxPush x _
  | step => exact decode_request_rxStep

theorem RxAction.exec_instr (a : RxAction) (s : State) :
    exec a.instr s = .next (s.finish (a.result s.params s.block).1 (a.result s.params s.block).2) := by
  cases a <;> rfl

/-- An action reads and writes the receive items alone. -/
theorem RxAction.result_of_sharesItems (a : RxAction) (p : Params) {b src : Block}
    (h : b.SharesItems .receive src) :
    (a.result p b).1.SharesItems .receive (a.result p src).1 ∧ (a.result p b).2 = (a.result p src).2 := by
  rw [← show b.withItems .receive src = b from h]
  cases a with
  | push x =>
    simp only [RxAction.result, Block.push_withItems]
    exact ⟨Block.withItems_sharesItems _ _ _, trivial⟩
  | step =>
    simp only [RxAction.result, Block.rxStep_withItems]
    exact ⟨Block.withItems_sharesItems _ _ _, trivial⟩

/-- A turn of a script that asks for an action, among traffic outside the receive group: the outcome and the receive
items are those the action has uninterrupted. -/
theorem Script.turn_rxAction {others : List Request} {c : Script} {s : State} {b : Block} (a : RxAction)
    (hc : c.request = some a.request) (hothers : ∀ q ∈ others, q.Outside .receive)
    (hb : s.block.SharesItems .receive b) :
    ∃ t, c.turn others s = .next (c.advance (a.result s.params b).2, t) ∧ t.params = s.params ∧
      t.port.pending = s.port.pending ∧ t.block.SharesItems .receive (a.result s.params b).1 := by
  obtain ⟨u, hrun, hparams, hpending, hu⟩ :=
    run_others others s (fun q hq => (hothers q hq).keeps_items (by decide) b) hb
  obtain ⟨hitems, hout⟩ := a.result_of_sharesItems s.params hu
  have hturn := Script.turn_exec hrun hc a.decode_request (a.exec_instr u)
  rw [hparams, hout] at hturn
  exact ⟨_, hturn, hparams, hpending, hitems⟩

/-- Under the parameters `p` the tasks take one number of turns to their end, whatever traffic outside the receive
group falls between them: from a block with `b`'s receive items they keep the outcomes `r.2` and leave `r.1`'s. -/
def TasksEnd (p : Params) (tasks : List ScriptTask) (b : Block) (r : Block × List RxOutcome) : Prop :=
  ∃ n, ∀ (turns : List (List Request)) (s : State) (rest : List ScriptTask) (kept : List OpOutcome),
    turns.length = n → (∀ others ∈ turns, ∀ q ∈ others, q.Outside .receive) → s.params = p →
    s.block.SharesItems .receive b →
    ∃ t, Script.perform turns { tasks := tasks ++ rest, kept := kept } s =
        .next ({ tasks := rest, kept := kept ++ r.2.map .rx }, t) ∧
      t.params = p ∧ t.port.pending = s.port.pending ∧ t.block.SharesItems .receive r.1

theorem TasksEnd.nil (p : Params) (b : Block) : TasksEnd p [] b (b, []) := by
  refine ⟨0, fun turns s rest kept hlen _ hp hb => ?_⟩
  obtain rfl := List.length_eq_zero_iff.1 hlen
  exact ⟨s, by simp, hp, rfl, hb⟩

/-- Tasks after tasks: the turns of both. -/
theorem TasksEnd.append {p : Params} {tasks more : List ScriptTask} {b b' : Block} {os : List RxOutcome}
    {r : Block × List RxOutcome} (h : TasksEnd p tasks b (b', os)) (h' : TasksEnd p more b' r) :
    TasksEnd p (tasks ++ more) b (r.1, os ++ r.2) := by
  obtain ⟨n, hn⟩ := h
  obtain ⟨m, hm⟩ := h'
  refine ⟨n + m, fun turns s rest kept hlen hturns hp hb => ?_⟩
  obtain ⟨t, hperform, htp, htpending, htb⟩ := hn (turns.take n) s (more ++ rest) kept
    (by rw [List.length_take]; omega) (fun o ho => hturns o (List.mem_of_mem_take ho)) hp hb
  obtain ⟨u, hperform', hup, hupending, hub⟩ := hm (turns.drop n) t rest (kept ++ os.map .rx)
    (by rw [List.length_drop]; omega) (fun o ho => hturns o (List.mem_of_mem_drop ho)) htp htb
  refine ⟨u, ?_, hup, hupending.trans htpending, hub⟩
  have hall := (Script.perform_append (more := turns.drop n) hperform).trans hperform'
  rw [List.take_append_drop] at hall
  rw [List.append_assoc, List.map_append, ← List.append_assoc kept]
  exact hall

/-- One turn of a task whose operation is the action `a`, and then what the answer leaves of the task. -/
theorem TasksEnd.turn {p : Params} {k : ScriptTask} {a : RxAction} {b b' : Block} {o : OpOutcome}
    {left : List ScriptTask} {os : List RxOutcome} {r : Block × List RxOutcome} (hk : k.request = a.request)
    (hresult : a.result p b = (b', o)) (hafter : k.after o = (left, os.map .rx)) (hleft : TasksEnd p left b' r) :
    TasksEnd p [k] b (r.1, os ++ r.2) := by
  obtain ⟨n, hn⟩ := hleft
  refine ⟨n + 1, fun turns s rest kept hlen hturns hp hb => ?_⟩
  obtain ⟨others, turns, rfl⟩ := List.exists_cons_of_length_eq_add_one hlen
  obtain ⟨hothers, hturns⟩ := List.forall_mem_cons.1 hturns
  obtain ⟨t, hturn, htp, htpending, htb⟩ := Script.turn_rxAction (c := { tasks := k :: rest, kept := kept }) a
    (congrArg some hk) hothers hb
  simp only [Script.advance, hp, hresult, hafter] at hturn htp htb
  obtain ⟨u, hperform, hup, hupending, hub⟩ :=
    hn turns t rest (kept ++ os.map .rx) (Nat.succ.inj hlen) hturns htp htb
  refine ⟨u, ?_, hup, hupending.trans htpending, hub⟩
  rw [List.map_append, ← List.append_assoc]
  exact (Script.perform_cons hturn).trans hperform

/-! ### The tasks of the three expansions -/

theorem ScriptTask.after_drain_needMore : ScriptTask.drain.after (.rx .needMore) = ([], []) := rfl

theorem ScriptTask.after_drain {o : RxOutcome} (h : o ≠ .needMore) :
    ScriptTask.drain.after (.rx o) = ([.drain], [.rx o]) :=
  if_neg fun e => h (OpOutcome.rx.inj e)

theorem ScriptTask.after_push_ok (x : Byte) : (ScriptTask.push x).after .pushOk = ([], []) := rfl

theorem ScriptTask.after_push_refused (x : Byte) :
    (ScriptTask.push x).after .pushRefused = ([.makeRoom x], []) := rfl

theorem TasksEnd.drainFor (p : Params) {n : Nat} {b : Block} (hn : b.rxbuf.length < n) :
    TasksEnd p [.drain] b (b.drainFor p n) := by
  induction n generalizing b with
  | zero => omega
  | succ n ih =>
    by_cases hw : wireHead b.rxbuf = .needMore
    · rw [Block.drainFor_needMore hw]
      exact .turn (os := []) rfl (RxAction.result_step_needMore hw) ScriptTask.after_drain_needMore (.nil p b)
    · obtain ⟨hpos, hle⟩ := rxDecide_consumed (seed := p.seed) hw
      have hne : (b.rxStep p).2 ≠ .needMore := fun e => hw (rxDecide_needMore_iff.1 e)
      have hfewer : (b.rxStep p).1.rxbuf.length < n := by
        rw [Block.rxStep_rxbuf, List.length_drop]
        omega
      rw [Block.drainFor_decided hw]
      exact .turn (a := .step) (os := [(b.rxStep p).2]) rfl rfl (ScriptTask.after_drain hne) (ih hfewer)

/-- RX.PUSH where there is room takes one turn. -/
theorem TasksEnd.push_room {p : Params} {x : Byte} {b : Block} (hroom : b.rxbuf.length ≠ p.bufCap) :
    TasksEnd p [.push x] b ({ b with rxbuf := b.rxbuf ++ [x] }, []) :=
  .turn (os := []) rfl (RxAction.result_push_room hroom) (ScriptTask.after_push_ok x) (.nil p _)

/-- RX.PUSH to a full buffer takes three: the refusal, the RX.STEP that makes room, the push. -/
theorem TasksEnd.push_full {p : Params} {x : Byte} {b : Block} (hcap : maxFrame ≤ p.bufCap)
    (hfull : b.rxbuf.length = p.bufCap) :
    TasksEnd p [.push x] b
      ({ (b.rxStep p).1 with rxbuf := (b.rxStep p).1.rxbuf ++ [x] }, [(b.rxStep p).2]) := by
  have hroom : TasksEnd p [.makeRoom x] b
      ({ (b.rxStep p).1 with rxbuf := (b.rxStep p).1.rxbuf ++ [x] }, [(b.rxStep p).2]) :=
    .turn (a := .step) (os := [(b.rxStep p).2]) rfl rfl rfl
      (.push_room (Block.rxStep_makes_room hcap hfull))
  exact .turn (os := []) rfl (RxAction.result_push_full hfull) (ScriptTask.after_push_refused x) hroom

theorem TasksEnd.feedByte {p : Params} (hcap : maxFrame ≤ p.bufCap) (n : Nat) (x : Byte) (b : Block) :
    TasksEnd p [.push x] b (b.feedByte p (n + 2) x) := by
  by_cases hfull : b.rxbuf.length = p.bufCap
  · rw [Block.feedByte_full_eq hcap hfull]
    exact .push_full hcap hfull
  · rw [Block.feedByte_room hfull]
    exact .push_room hfull

theorem TasksEnd.feedBytes {p : Params} (hcap : maxFrame ≤ p.bufCap) (bytes : List Byte) (b : Block) :
    TasksEnd p (bytes.map .push) b (b.feedBytes p bytes) := by
  induction bytes generalizing b with
  | nil => exact .nil p b
  | cons x rest ih => exact (TasksEnd.feedByte hcap b.rxLen x b).append (ih _)

theorem TasksEnd.feed {p : Params} (hcap : maxFrame ≤ p.bufCap) (bytes : List Byte) (b : Block) :
    TasksEnd p (feedTasks bytes) b (b.feed p bytes) :=
  (TasksEnd.feedBytes hcap bytes b).append (TasksEnd.drainFor p (Nat.lt_succ_self _))

theorem TasksEnd.feedAll {p : Params} (hcap : maxFrame ≤ p.bufCap) (chunks : List (List Byte)) (b : Block) :
    TasksEnd p (chunks.flatMap feedTasks) b (b.feedAll p chunks) := by
  induction chunks generalizing b with
  | nil => exact .nil p b
  | cons c rest ih =>
    rw [List.flatMap_cons]
    exact (TasksEnd.feed hcap c b).append (ih _)

/-- Settles O44: each of the three is a list of tasks that ends with the uninterrupted result (`TasksEnd`). -/
theorem interleavedReceiveExpansionsKeepTheirResult : Obligations.InterleavedReceiveExpansionsKeepTheirResult := by
  intro s bytes k c r hcap _ hc
  have hends : ∃ tasks, c = Script.start tasks ∧ TasksEnd s.params tasks s.block r := by
    rcases hc with ⟨rfl, rfl⟩ | ⟨rfl, rfl⟩ | ⟨rfl, rfl⟩
    · exact ⟨_, rfl, .drainFor s.params (Nat.lt_succ_self _)⟩
    · exact ⟨_, rfl, .feed hcap bytes s.block⟩
    · exact ⟨_, rfl, .feedAll hcap _ s.block⟩
  obtain ⟨tasks, rfl, n, hn⟩ := hends
  refine ⟨n, fun turns hlen hturns => ?_⟩
  obtain ⟨t, hperform, htp, htpending, htb⟩ :=
    hn turns s [] [] hlen hturns rfl (Block.sharesItems_self .receive s.block)
  rw [List.append_nil] at hperform
  exact ⟨t, hperform, htp, htpending, htb.receive⟩

end Sys2Proof.Machine

namespace Sys2Proof.Machine

/-! ## The checksum step (spec/40_checksum.md R81, R87) -/

/-- The "four-bit shift mix" of R81: what `t'` is made of `t`. -/
def crcMix (t : Byte) : Byte := t ^^^ (t <<< 4)

/-- The "fold back into the 16-bit accumulator" of R81: what `t'` adds to the shifted accumulator. -/
def crcFoldBack (t' : Byte) : Word :=
  (t'.setWidth 16 <<< 8) ^^^ (t'.setWidth 16 <<< 3) ^^^ (t'.setWidth 16 >>> 4)

theorem crcStep_eq (a : Word) (b : Byte) :
    crcStep a b = (a >>> 8) ^^^ crcFoldBack (crcMix (b ^^^ a.setWidth 8)) := by
  simp only [crcStep, crcFoldBack, crcMix, BitVec.xor_assoc]

theorem crcMix_xor (t u : Byte) : crcMix (t ^^^ u) = crcMix t ^^^ crcMix u := by
  simp only [crcMix, BitVec.shiftLeft_xor_distrib]
  ac_rfl

theorem crcFoldBack_xor (t u : Byte) : crcFoldBack (t ^^^ u) = crcFoldBack t ^^^ crcFoldBack u := by
  simp only [crcFoldBack, BitVec.setWidth_xor, BitVec.shiftLeft_xor_distrib, BitVec.ushiftRight_xor_distrib]
  ac_rfl

/-- R87 (a): each part of the step is linear. -/
theorem crcStep_xor (a a' : Word) (b b' : Byte) :
    crcStep (a ^^^ a') (b ^^^ b') = crcStep a b ^^^ crcStep a' b' := by
  have hlow : b ^^^ b' ^^^ (a ^^^ a').setWidth 8 = (b ^^^ a.setWidth 8) ^^^ (b' ^^^ a'.setWidth 8) := by
    rw [BitVec.setWidth_xor]
    ac_rfl
  simp only [crcStep_eq, hlow, crcMix_xor, crcFoldBack_xor, BitVec.ushiftRight_xor_distrib]
  ac_rfl

/-- A byte met by itself in the low half of the accumulator is cancelled. -/
theorem crcStep_self (b : Byte) : crcStep (b.setWidth 16) b = 0#16 := by
  revert b
  decide

/-- R87 (b), by linearity: the byte and its copy in the accumulator cancel. -/
theorem crcStep_eq_crcStep_zero (a : Word) (b : Byte) : crcStep a b = crcStep (a ^^^ b.setWidth 16) 0#8 := by
  calc crcStep a b = crcStep a b ^^^ crcStep (b.setWidth 16) b := by rw [crcStep_self, BitVec.xor_zero]
    _ = crcStep (a ^^^ b.setWidth 16) (b ^^^ b) := (crcStep_xor _ _ _ _).symm
    _ = crcStep (a ^^^ b.setWidth 16) 0#8 := by rw [BitVec.xor_self]

/-! ## The bit-serial form (spec/40_checksum.md R82) -/

/-- The bit shifted out comes back as the top bit of 0x8408, which the shift has cleared. -/
theorem getLsbD_crcBit_top (a : Word) : (crcBit a).getLsbD 15 = a.getLsbD 0 := by
  unfold crcBit
  split
  · next h => simp [h]
  · next h => simpa using h

theorem crcBit_eq (a : Word) : crcBit a = (a >>> 1) ^^^ (if a.getLsbD 0 then 0x8408#16 else 0#16) := by
  unfold crcBit
  split <;> simp

theorem crcBit_xor (a a' : Word) : crcBit (a ^^^ a') = crcBit a ^^^ crcBit a' := by
  have hpoly : (if (a ^^^ a').getLsbD 0 then 0x8408#16 else 0#16) =
      (if a.getLsbD 0 then 0x8408#16 else 0#16) ^^^ (if a'.getLsbD 0 then 0x8408#16 else 0#16) := by
    rw [BitVec.getLsbD_xor]
    cases a.getLsbD 0 <;> cases a'.getLsbD 0 <;> rfl
  simp only [crcBit_eq, hpoly, BitVec.ushiftRight_xor_distrib]
  ac_rfl

/-- One turn can be undone: its top bit tells the bit shifted out, the rest tells the others. -/
theorem crcBit_injective : Function.Injective crcBit := by
  intro a a' h
  have hlow : a.getLsbD 0 = a'.getLsbD 0 := by rw [← getLsbD_crcBit_top, h, getLsbD_crcBit_top]
  have hshift : a >>> 1 = a' >>> 1 := by
    rw [crcBit_eq, crcBit_eq, hlow] at h
    exact (BitVec.xor_left_inj _).1 h
  apply BitVec.eq_of_getLsbD_eq
  intro i hi
  cases i with
  | zero => exact hlow
  | succ i => simpa [Nat.add_comm] using congrArg (BitVec.getLsbD · i) hshift

/-- The eight turns of R82's loop. -/
theorem crcStepBits_eq_iterate (a : Word) (b : Byte) : crcStepBits a b = crcBit^[8] (a ^^^ b.setWidth 16) := rfl

theorem crcBit_iterate_xor (n : Nat) (a a' : Word) : crcBit^[n] (a ^^^ a') = crcBit^[n] a ^^^ crcBit^[n] a' := by
  induction n generalizing a a' with
  | zero => rfl
  | succ n ih => rw [Function.iterate_succ_apply, crcBit_xor, ih]; rfl

/-- An accumulator is its high byte and its low byte. -/
theorem word_halves (a : Word) :
    a = (a.extractLsb' 8 8).setWidth 16 <<< 8 ^^^ (a.extractLsb' 0 8).setWidth 16 := by
  apply BitVec.eq_of_getLsbD_eq
  intro i hi
  simp only [BitVec.getLsbD_xor, BitVec.getLsbD_shiftLeft, BitVec.getLsbD_setWidth, BitVec.getLsbD_extractLsb']
  by_cases hlow : i < 8
  · simp [hlow, hi]
  · simp [hlow, hi, show i - 8 < 8 by omega, show i - 8 < 16 by omega, show 8 + (i - 8) = i by omega]

/-- The high byte is only shifted down, by the step and by the eight turns alike. -/
theorem crcStep_high (x : Byte) : crcStep (x.setWidth 16 <<< 8) 0#8 = crcBit^[8] (x.setWidth 16 <<< 8) := by
  revert x
  decide

theorem crcStep_low (x : Byte) : crcStep (x.setWidth 16) 0#8 = crcBit^[8] (x.setWidth 16) := by
  revert x
  decide

/-- With byte 0 the step is the eight turns: both are linear, and they agree on each half of the accumulator. -/
theorem crcStep_zero_eq_iterate (a : Word) : crcStep a 0#8 = crcBit^[8] a := by
  rw [word_halves a, crcBit_iterate_xor, ← crcStep_high, ← crcStep_low, ← crcStep_xor, BitVec.xor_self]

/-- Settles O18: the byte enters both forms by an exclusive-or with the accumulator (`crcStep_eq_crcStep_zero`), and
from there the step is the eight turns (`crcStep_zero_eq_iterate`). -/
theorem checksumStepEqualsBitSerialForm : Obligations.ChecksumStepEqualsBitSerialForm := by
  intro a b
  rw [crcStepBits_eq_iterate, crcStep_eq_crcStep_zero, crcStep_zero_eq_iterate]

/-! ## What the step tells apart (spec/40_checksum.md R87) -/

/-- R87 (c), by the bit-serial form, whose every turn can be undone. -/
theorem crcStep_injective_acc (b : Byte) : Function.Injective fun a => crcStep a b := by
  intro a a' h
  simp only [crcStep_eq_crcStep_zero _ b, crcStep_zero_eq_iterate] at h
  exact (BitVec.xor_left_inj _).1 (crcBit_injective.iterate 8 h)

/-- R87 (d): the byte enters as a part of the accumulator, which the step tells apart. -/
theorem crcStep_injective_byte (a : Word) : Function.Injective fun b => crcStep a b := by
  intro b b' h
  simp only [crcStep_eq_crcStep_zero a] at h
  have hwide : b.setWidth 16 = b'.setWidth 16 := (BitVec.xor_right_inj _).1 (crcStep_injective_acc 0#8 h)
  simpa using congrArg (BitVec.setWidth 8) hwide

/-- Settles O19, clause by clause; on finitely many accumulators injective is bijective. -/
theorem checksumStepIsLinearAndInjective : Obligations.ChecksumStepIsLinearAndInjective :=
  ⟨crcStep_xor, crcStep_eq_crcStep_zero,
    fun b => Finite.injective_iff_bijective.1 (crcStep_injective_acc b), crcStep_injective_byte⟩

/-! ## The fold (spec/40_checksum.md R83 to R85, R87) -/

theorem crcFold_append (a : Word) (s t : List Byte) : crcFold a (s ++ t) = crcFold (crcFold a s) t := by
  induction s generalizing a with
  | nil => rfl
  | cons b s ih => exact ih _

/-- Different starts stay different over the same bytes. -/
theorem crcFold_injective (s : List Byte) : Function.Injective fun a => crcFold a s := by
  induction s with
  | nil => exact Function.injective_id
  | cons b s ih => exact ih.comp (crcStep_injective_acc b)

theorem crcFold_ne_of_byte_ne (a : Word) (pre post : List Byte) {b b' : Byte} (h : b ≠ b') :
    crcFold a (pre ++ b :: post) ≠ crcFold a (pre ++ b' :: post) := by
  simp only [crcFold_append, crcFold_cons]
  exact fun heq => h (crcStep_injective_byte _ (crcFold_injective post heq))

/-- Settles O20: the step at the changed byte tells the two apart, the fold over what follows keeps them apart; a
checksum is such a fold with the seed as its last byte (`crc16_eq_crcFold`). -/
theorem oneChangedByteAlwaysChangesTheChecksum : Obligations.OneChangedByteAlwaysChangesTheChecksum := by
  intro pre post b b' hne
  refine ⟨fun a => crcFold_ne_of_byte_ne a pre post hne, fun seed => ?_⟩
  simp only [crc16_eq_crcFold, List.append_assoc, List.cons_append]
  exact crcFold_ne_of_byte_ne crcInitValue pre (post ++ [seed]) hne

/-- Settles O21: the two equations of the fold, and their law for pieces (`crcFold_append`). -/
theorem checksumFoldsInPieces : Obligations.ChecksumFoldsInPieces :=
  ⟨crcFold_nil, crcFold_cons, crcFold_append⟩

/-- Settles O22: the checksum ends with the seed's step; the check value by evaluation. -/
theorem checksumCheckValue : Obligations.ChecksumCheckValue :=
  ⟨fun _ _ => rfl, by decide⟩

/-! ## The step on natural numbers (spec/40_checksum.md R81) -/

theorem toNat_crcMix (t : Byte) : (crcMix t).toNat = (t.toNat ^^^ (t.toNat <<< 4)) % 256 := by
  rw [crcMix, BitVec.toNat_xor, BitVec.toNat_shiftLeft, show 256 = 2 ^ 8 from rfl, Nat.xor_mod_two_pow,
    Nat.mod_eq_of_lt t.isLt]

theorem toNat_crcFoldBack (t' : Byte) :
    (crcFoldBack t').toNat = ((t'.toNat <<< 8) ^^^ (t'.toNat <<< 3) ^^^ (t'.toNat >>> 4)) % 65536 := by
  have hwide : (t'.setWidth 16).toNat = t'.toNat := BitVec.toNat_setWidth_of_le (by decide)
  have hshift : (t'.toNat >>> 4) % 2 ^ 16 = t'.toNat >>> 4 := by
    rw [Nat.shiftRight_eq_div_pow]
    omega
  simp only [crcFoldBack, BitVec.toNat_xor, BitVec.toNat_shiftLeft, BitVec.toNat_ushiftRight, hwide,
    show 65536 = 2 ^ 16 from rfl, Nat.xor_mod_two_pow, hshift]

/-- Settles O17, part by part: `t` is the byte that is mixed, `t'` its mix, and the last truncation drops nothing of
`a >> 8`. -/
theorem checksumStepIsTheByteRecipe : Obligations.ChecksumStepIsTheByteRecipe := by
  intro a b t t' ht ht'
  have hbyte : (b ^^^ a.setWidth 8).toNat = t := by
    rw [ht, BitVec.toNat_xor, BitVec.toNat_setWidth, show 256 = 2 ^ 8 from rfl, Nat.xor_mod_two_pow, Nat.mod_mod,
      Nat.mod_eq_of_lt b.isLt]
  have hmix : (crcMix (b ^^^ a.setWidth 8)).toNat = t' := by rw [toNat_crcMix, hbyte, ht']
  have hshift : (a.toNat >>> 8) % 2 ^ 16 = a.toNat >>> 8 := by
    rw [Nat.shiftRight_eq_div_pow]
    omega
  rw [crcStep_eq, BitVec.toNat_xor, BitVec.toNat_ushiftRight, toNat_crcFoldBack, hmix]
  simp only [show 65536 = 2 ^ 16 from rfl, Nat.xor_mod_two_pow, hshift, Nat.xor_assoc]

/-! ## The checksum port (spec/40_checksum.md R88 to R91) -/

/-- Settles O23: both words have argument 0, and the two meanings are R88's and R90's pseudocode. -/
theorem checksumPortInitialisesAndReads : Obligations.ChecksumPortInitialisesAndReads :=
  ⟨fun _ => ⟨rfl, rfl⟩, fun _ => ⟨rfl, rfl⟩⟩

/-- R89 writes CRC.ACC's word with an or, the encoder with the operation's byte before the argument. -/
theorem crcAcc_word (b : Byte) : 0x2000#16 ||| b.setWidth 16 = (Request.crcAcc b).word := by
  revert b
  decide

/-- Settles O24: the word is that of CRC.ACC's request, and the meaning is R89's pseudocode. -/
theorem checksumPortAccumulates : Obligations.ChecksumPortAccumulates := by
  refine ⟨fun b r => ?_, fun s b => rfl⟩
  rw [crcAcc_word]
  exact decode_request_crcAcc b r

/-- The value ACC has after an operation, from the value before it (spec/10_state.md R10, R11). -/
def accAfter (a : Word) (i : Instr) : Word :=
  match i with
  | .reset => Block.reset.acc
  | .crcInit => crcInitValue
  | .crcAcc b => crcStep a b
  | _ => a

@[simp] theorem accAfter_crcInit (a : Word) : accAfter a .crcInit = crcInitValue := rfl

@[simp] theorem accAfter_crcAcc (a : Word) (b : Byte) : accAfter a (.crcAcc b) = crcStep a b := rfl

/-- Every instruction leaves in ACC what `accAfter` says. -/
theorem exec_acc {i : Instr} {s t : State} (h : exec i s = .next t) : t.block.acc = accAfter s.block.acc i := by
  cases i with
  | frameV1 f => obtain ⟨-, rfl⟩ := consumeCandidate_next h; exact Block.applyDecision_acc ..
  | frameV2 f => obtain ⟨-, rfl⟩ := consumeCandidate_next h; exact Block.applyDecision_acc ..
  | reset => cases h; rfl
  | crcInit => cases h; rfl
  | crcAcc b => cases h; rfl
  | crcRead => cases h; rfl
  | rxPush b => cases h; rw [State.finish_block, Block.push_frame]; rfl
  | rxStep => cases h; exact Block.applyDecision_acc ..
  | txEncode r => cases h; rfl
  | seqTake => cases h; rfl
  | csrRead n => cases h; rfl

/-- The operation named is the one the request's word decodes to. -/
theorem Request.decode_of_writesAcc {q : Request} {i : Instr} (h : q.writesAcc = some i) :
    decodeCommand q.word q.operands = .ok i := by
  unfold Request.writesAcc at h
  split at h
  case h_1 hd | h_2 hd | h_3 hd => cases h; exact hd
  case h_4 => cases h

/-- A step on a request writes ACC only as the operation `Request.writesAcc` names, if it names one. -/
theorem step_acc {s : State} {q : Request} {rest : List Request} (hp : s.port.pending = q :: rest) :
    ∃ b o, step s = .next ((s.withPending rest).finish b o) ∧
      b.acc = q.writesAcc.elim s.block.acc (accAfter s.block.acc) := by
  cases hw : q.writesAcc with
  | none => exact step_keeps hp (q.keeps_acc hw s.block.acc) rfl
  | some i =>
    obtain ⟨b, o, hstep⟩ := step_finish hp
    exact ⟨b, o, hstep, exec_acc ((step_ok hp (Request.decode_of_writesAcc hw)).symm.trans hstep)⟩

/-- Requests performed leave in ACC what those of them that write it make of it, in order. -/
theorem run_acc (reqs rest : List Request) (s : State) (hp : s.port.pending = reqs ++ rest) :
    ∃ t, core.run reqs.length s = .next t ∧
      t.block.acc = (reqs.filterMap Request.writesAcc).foldl accAfter s.block.acc ∧ t.port.pending = rest := by
  induction reqs generalizing s with
  | nil => exact ⟨s, rfl, rfl, hp⟩
  | cons q reqs ih =>
    obtain ⟨b, o, hstep, hacc⟩ := step_acc hp
    obtain ⟨t, hrun, htacc, htpending⟩ := ih ((s.withPending (reqs ++ rest)).finish b o) rfl
    have hfirst : (reqs.filterMap Request.writesAcc).foldl accAfter b.acc =
        ((q :: reqs).filterMap Request.writesAcc).foldl accAfter s.block.acc := by
      rw [hacc, List.filterMap_cons]
      cases q.writesAcc <;> rfl
    exact ⟨t, (core_run_succ _ hstep).trans hrun, htacc.trans hfirst, htpending⟩

theorem foldl_accAfter_crcAcc (a : Word) (s : List Byte) : (s.map Instr.crcAcc).foldl accAfter a = crcFold a s := by
  induction s generalizing a with
  | nil => rfl
  | cons b s ih => rw [List.map_cons, List.foldl_cons, accAfter_crcAcc, ih, crcFold_cons]

/-- The operations R91 names leave the checksum, whatever ACC held before. -/
theorem foldl_accAfter_crc16 (a : Word) (s : List Byte) (seed : Byte) :
    (Instr.crcInit :: s.map Instr.crcAcc ++ [Instr.crcAcc seed]).foldl accAfter a = crc16 s seed := by
  simp only [List.foldl_append, List.foldl_cons, List.foldl_nil, accAfter_crcInit, accAfter_crcAcc,
    foldl_accAfter_crcAcc, crc16]

/-- Settles O25: of all the requests performed only the named ones write ACC (`run_acc`), and these leave the checksum
(`foldl_accAfter_crc16`). -/
theorem checksumPortSurvivesOtherTraffic : Obligations.ChecksumPortSurvivesOtherTraffic := by
  intro s bytes seed reqs rest hp hwriters
  obtain ⟨t, hrun, hacc, hpending⟩ := run_acc reqs rest s hp
  rw [hwriters, foldl_accAfter_crc16] at hacc
  exact ⟨t, hrun, hacc, hpending⟩

end Sys2Proof.Machine

namespace Sys2Proof.Machine

/-! ## RX.STEP and RX.PUSH on the machine (spec/41_rx_decode.md R101, R104 to R106, R111, R117) -/

/-- RX.STEP ends with its decision carried out on the block and the decision's outcome returned (R101). -/
theorem exec_rxStep_of_decision {s : State} {d : RxDecision} (hd : rxDecide s.params.seed s.block.rxbuf = d) :
    exec .rxStep s = .next (s.finish (s.block.applyDecision s.params.cntW d) (.rx d.outcome)) := by
  subst hd
  rfl

/-- An undecided head answers NeedMore and leaves the block as it is (R105, R106). -/
theorem exec_rxStep_of_needMore {s : State} (hw : wireHead s.block.rxbuf = .needMore) :
    exec .rxStep s = .next (s.finish s.block (.rx .needMore)) :=
  exec_rxStep_of_decision (rxDecide_of_needMore hw)

/-- An RX.STEP that has returned `o` is the block's RX.STEP, which answers `o`, and changes nothing else. -/
theorem exec_rxStep_inv {s t : State} {o : RxOutcome} (h : exec .rxStep s = .next t)
    (hout : t.port.outcomes = .rx o :: s.port.outcomes) :
    (s.block.rxStep s.params).2 = o ∧ t = s.finish (s.block.rxStep s.params).1 (.rx o) := by
  cases h
  obtain rfl := OpOutcome.rx.inj (List.cons.inj hout).1
  exact ⟨rfl, rfl⟩

/-- RX.STEP answers something other than NeedMore exactly where the head decides. -/
theorem Block.rxStep_ne_needMore_iff {p : Params} {b : Block} :
    (b.rxStep p).2 ≠ .needMore ↔ wireHead b.rxbuf ≠ .needMore :=
  not_congr rxDecide_needMore_iff

/-- R111 writes RX.PUSH's word with an or, the encoder with the operation's byte before the argument. -/
theorem rxPush_word (b : Byte) : 0x4000#16 ||| b.setWidth 16 = (Request.rxPush b).word := by
  revert b
  decide

/-- Settles O28: the word is that of RX.PUSH's request, and a push has the two ends of `Block.push_cases`. -/
theorem rxPushAppendsOrIsRefused : Obligations.RxPushAppendsOrIsRefused := by
  refine ⟨fun b r => ?_, fun s b => ⟨fun hfull => ?_, fun hroom => ?_⟩⟩
  · rw [rxPush_word]
    exact decode_request_rxPush b r
  · exact (RxAction.exec_instr (.push b) s).trans (by rw [RxAction.result_push_full hfull])
  · exact (RxAction.exec_instr (.push b) s).trans (by rw [RxAction.result_push_room hroom])

/-- Fewer bytes than a header are fewer than a frame, whatever its length byte says (R105). -/
theorem wireHead_of_short_header {v : Version} {rest : List Byte}
    (h : (v.startByte :: rest).length < v.hdrLen) : wireHead (v.startByte :: rest) = .needMore := by
  refine wireHead_needMore_iff.2 (.inr ⟨v, rest, rfl, ?_⟩)
  rw [frameLen_eq]
  omega

/-- Fewer bytes than the length byte asks for (R106). -/
theorem wireHead_of_short_frame {v : Version} {len : Byte} {rest : List Byte}
    (h : (v.startByte :: len :: rest).length < frameLen v len.toNat) :
    wireHead (v.startByte :: len :: rest) = .needMore :=
  wireHead_needMore_iff.2 (.inr ⟨v, len :: rest, rfl, h⟩)

/-- Settles O30: in each of the five cases the head is undecided (`wireHead_of_short_header`,
`wireHead_of_short_frame`). -/
theorem rxStepWaitsForAWholeFrame : Obligations.RxStepWaitsForAWholeFrame := by
  intro s hshort
  apply exec_rxStep_of_needMore
  rcases hshort with hnil | ⟨rest, hbuf, hlen⟩ | ⟨rest, hbuf, hlen⟩ | ⟨len, rest, hbuf, hlen⟩ |
    ⟨len, rest, hbuf, hlen⟩
  · rw [hnil]
    exact wireHead_nil
  all_goals rw [hbuf] at hlen ⊢
  · exact wireHead_of_short_header (v := .v1) hlen
  · exact wireHead_of_short_header (v := .v2) hlen
  · exact wireHead_of_short_frame (v := .v1) hlen
  · exact wireHead_of_short_frame (v := .v2) hlen

/-- Settles O36: only an undecided head answers NeedMore, and it leaves the block, which answers it again. -/
theorem needMoreIsIdle : Obligations.NeedMoreIsIdle := by
  intro s t h hout
  obtain ⟨ho, rfl⟩ := exec_rxStep_inv h hout
  have hw : wireHead s.block.rxbuf = .needMore := rxDecide_needMore_iff.1 ho
  rw [Block.rxStep_needMore hw]
  exact ⟨rfl, exec_rxStep_of_needMore hw⟩

/-! ## What RX.STEP reads and writes (spec/41_rx_decode.md R107 to R110, R116) -/

/-- The three bytes a version 2 id was joined from (spec/30_encoding.md R55). -/
theorem extractLsb'_joinMsgId (b0 b1 b2 : Byte) :
    (joinMsgId b0 b1 b2).extractLsb' 0 8 = b0 ∧ (joinMsgId b0 b1 b2).extractLsb' 8 8 = b1 ∧
      (joinMsgId b0 b1 b2).extractLsb' 16 8 = b2 := by
  simpa only [msgIdBytes, List.cons.injEq, and_true] using msgIdBytes_joinMsgId b0 b1 b2

/-- Settles O31: the bytes are those of a wire frame, and RX.STEP does with them what that frame's instruction does
(`exec_rxStep_of_candidate`, `wireFrameInstructionsComplete`). -/
theorem rxStepDecidesTheCandidate : Obligations.RxStepDecidesTheCandidate := by
  obtain ⟨hv1, hv2⟩ := wireFrameInstructionsComplete
  constructor
  · intro s len sq sys comp id lo hi p x hp hbuf
    have hfits : p.length ≤ 255 := by have := len.isLt; omega
    rw [← wireV1_of_fields hp] at hbuf ⊢
    rw [exec_rxStep_of_candidate hbuf (wireHead_wireV1 _ x hfits), ← joinChecksum_eq_shifts]
    have hlen : BitVec.ofNat 8 p.length = len := lenByte_eq hp
    refine (hv1 s _ x hfits hbuf).trans ?_
    simp only [frameOfV1, lenByte, hlen]
  · intro s len fl0 fl1 sq sys comp id0 id1 id2 lo hi p x hp hbuf
    have hfits : p.length ≤ 255 := by have := len.isLt; omega
    rw [← wireV2_of_fields hp] at hbuf ⊢
    rw [exec_rxStep_of_candidate hbuf (wireHead_wireV2 _ x hfits), ← joinChecksum_eq_shifts,
      ← joinMsgId_eq_shifts]
    have hlen : BitVec.ofNat 8 p.length = len := lenByte_eq hp
    obtain ⟨h0, h1, h2⟩ := extractLsb'_joinMsgId id0 id1 id2
    refine (hv2 s _ x hfits hbuf).trans ?_
    simp only [frameOfV2, lenByte, hlen, h0, h1, h2]

/-- RX.STEP removes nothing, one byte, or the whole candidate, by its length byte (R116). -/
theorem rxDecide_consumed_cases (seed : List Host.Cell) (buf : List Byte) :
    (rxDecide seed buf).consumed = 0 ∨ (rxDecide seed buf).consumed = 1 ∨
      ∃ v, Version.ofStart (byteAt buf 0) = some v ∧
        (rxDecide seed buf).consumed = frameLen v (byteAt buf 1).toNat := by
  cases hw : wireHead buf with
  | needMore => exact .inl (by rw [rxDecide_of_needMore hw])
  | skip b => exact .inr (.inl (by rw [rxDecide_of_skip hw]))
  | candidate v n =>
    obtain ⟨⟨rest, rfl⟩, hn, hle⟩ := wireHead_candidate_iff.1 hw
    have hwhole : ∃ u, Version.ofStart (byteAt (v.startByte :: rest) 0) = some u ∧
        (List.take n (v.startByte :: rest)).length = frameLen u (byteAt (v.startByte :: rest) 1).toNat :=
      ⟨v, Version.ofStart_startByte v, by rw [List.length_take_of_le hle, hn]⟩
    rw [rxDecide_of_candidate hw]
    rcases decideCandidate_cases seed v (List.take n (v.startByte :: rest)) with
      ⟨-, hd⟩ | ⟨sd, -, -, hd⟩ | ⟨sd, -, -, hd⟩ <;> rw [hd]
    · exact .inr (.inr hwhole)
    · exact .inr (.inl rfl)
    · exact .inr (.inr hwhole)

/-- CNT_UNKNOWN moves by one with an UnknownMessage and with nothing else (spec/10_state.md R16). -/
theorem Block.applyDecision_cntUnknown (w : Nat) (b : Block) (d : RxDecision) :
    (b.applyDecision w d).cntUnknown =
      if unknownCount [d.outcome] = 1 then (b.cntUnknown + 1) % 2 ^ w else b.cntUnknown := by
  obtain ⟨o, n⟩ := d
  cases o <;> rfl

/-- CNT_CKSUM moves by one with a ChecksumError and with nothing else (spec/10_state.md R17). -/
theorem Block.applyDecision_cntCksum (w : Nat) (b : Block) (d : RxDecision) :
    (b.applyDecision w d).cntCksum =
      if checksumErrorCount [d.outcome] = 1 then (b.cntCksum + 1) % 2 ^ w else b.cntCksum := by
  obtain ⟨o, n⟩ := d
  cases o <;> rfl

/-- Settles O35: RX.STEP carries out `rxDecide`, which is a function of SEED and RXBUF. -/
theorem rxStepDependsOnBufferAndSeedOnly : Obligations.RxStepDependsOnBufferAndSeedOnly := by
  intro s u hseed hbuf
  have hu : rxDecide u.params.seed u.block.rxbuf = rxDecide s.params.seed s.block.rxbuf := by rw [hseed, hbuf]
  refine ⟨_, _, (rxDecide s.params.seed s.block.rxbuf).outcome, (rxDecide s.params.seed s.block.rxbuf).consumed,
    exec_rxStep_of_decision rfl, exec_rxStep_of_decision hu, rfl, rfl, ?_, ?_, rxDecide_consumed_cases _ _, ?_⟩
  · exact Block.applyDecision_rxbuf ..
  · simp only [State.finish_block, Block.applyDecision_rxbuf, hbuf]
  · exact ⟨Block.applyDecision_cntUnknown .., Block.applyDecision_cntCksum .., Block.applyDecision_acc ..,
      Block.applyDecision_seq ..⟩

/-! ## Progress, and decisions that later bytes do not change (spec/41_rx_decode.md R118, R119) -/

theorem Block.drainFor_length_le (p : Params) (n : Nat) (b : Block) :
    (b.drainFor p n).2.length ≤ b.rxbuf.length := by
  induction n generalizing b with
  | zero => exact Nat.zero_le _
  | succ n ih =>
    by_cases hw : wireHead b.rxbuf = .needMore
    · rw [Block.drainFor_needMore hw]
      exact Nat.zero_le _
    · obtain ⟨hpos, hle⟩ := rxDecide_consumed (seed := p.seed) hw
      have hrest := ih (b.rxStep p).1
      rw [Block.rxStep_rxbuf, List.length_drop] at hrest
      rw [Block.drainFor_decided hw, List.length_cons]
      omega

theorem Block.needMore_notMem_drainFor (p : Params) (n : Nat) (b : Block) :
    RxOutcome.needMore ∉ (b.drainFor p n).2 := by
  induction n generalizing b with
  | zero => exact List.not_mem_nil
  | succ n ih =>
    by_cases hw : wireHead b.rxbuf = .needMore
    · rw [Block.drainFor_needMore hw]
      exact List.not_mem_nil
    · rw [Block.drainFor_decided hw]
      exact List.not_mem_cons_of_ne_of_not_mem (Block.rxStep_ne_needMore_iff.2 hw).symm (ih _)

/-- Settles O37: a decision shortens the buffer (`rxBufStep_length_lt`), so the drain's fuel outlasts it
(`Block.drainFor_decodesTo`). -/
theorem drainEndsWithNeedMore : Obligations.DrainEndsWithNeedMore := by
  constructor
  · intro s t o h hout hne
    obtain ⟨rfl, rfl⟩ := exec_rxStep_inv h hout
    exact rxBufStep_length_lt (Block.rxStep_rxBufStep s.params s.block).symm hne
  · intro p b
    obtain ⟨-, hwait⟩ := Block.drainFor_decodesTo p (Nat.lt_succ_self b.rxLen)
    exact ⟨Block.drainFor_length_le p _ b, rxDecide_needMore_iff.2 hwait, Block.needMore_notMem_drainFor p _ b⟩

/-- A decision on bytes that are there is carried out the same with later bytes behind them. -/
theorem Block.applyDecision_append (w : Nat) {b : Block} {d : RxDecision} (h : d.consumed ≤ b.rxbuf.length)
    (x : List Byte) :
    Block.applyDecision w { b with rxbuf := b.rxbuf ++ x } d =
      { b.applyDecision w d with rxbuf := (b.applyDecision w d).rxbuf ++ x } := by
  have hdrop := List.drop_append_of_le_length (l₂ := x) h
  obtain ⟨o, n⟩ := d
  cases o <;> simp only [Block.applyDecision, Memory.pop, hdrop]

/-- The block's RX.STEP, once it decides, is not changed by later bytes, which stay behind what it leaves. -/
theorem Block.rxStep_append {p : Params} {b : Block} (h : wireHead b.rxbuf ≠ .needMore) (x : List Byte) :
    Block.rxStep p { b with rxbuf := b.rxbuf ++ x } =
      ({ (b.rxStep p).1 with rxbuf := (b.rxStep p).1.rxbuf ++ x }, (b.rxStep p).2) := by
  simp only [Block.rxStep, rxDecide_append x h, Block.applyDecision_append p.cntW (rxDecide_consumed h).2 x]

/-- Settles O38, by `Block.rxStep_append`. -/
theorem decisionsAreFinal : Obligations.DecisionsAreFinal := by
  intro s u x hparams hblock t o h hout hne
  obtain ⟨rfl, rfl⟩ := exec_rxStep_inv h hout
  have hstep : u.block.rxStep u.params =
      ({ (s.block.rxStep s.params).1 with rxbuf := (s.block.rxStep s.params).1.rxbuf ++ x },
        (s.block.rxStep s.params).2) := by
    rw [hparams, hblock]
    exact Block.rxStep_append (Block.rxStep_ne_needMore_iff.1 hne) x
  refine ⟨_, RxAction.exec_instr .step u, ?_, ?_⟩ <;> rw [RxAction.result, hstep] <;> rfl

/-! ## Decoding a stream (spec/41_rx_decode.md R104, R120) -/

/-- One decision on a buffer, the block around it left out. -/
theorem DecodesTo.of_decision {seed : List Host.Cell} {s : List Byte} {d : RxDecision}
    (hd : rxDecide seed s = d) (hne : d.outcome ≠ .needMore) :
    DecodesTo seed s [d.outcome] (s.drop d.consumed) := by
  subst hd
  have hw : wireHead s ≠ .needMore := fun hw => hne (rxDecide_needMore_iff.2 hw)
  have hstep := Block.rxStep_decodesTo { seed := seed, bufCap := maxFrame, cntW := 1 }
    (b := { Block.reset with rxbuf := s }) hw
  rwa [Block.rxStep_rxbuf] at hstep

/-- Decoding in one piece is a stretch of decoding like any other, however far the fuel takes it. -/
theorem decodeFor_decodesTo (seed : List Host.Cell) (n : Nat) (s : List Byte) :
    DecodesTo seed s (decodeFor seed n s).1 (decodeFor seed n s).2 := by
  induction n generalizing s with
  | zero => exact .refl seed s
  | succ n ih =>
    by_cases hw : wireHead s = .needMore
    · rw [decodeFor_needMore hw]
      exact .refl seed s
    · rw [decodeFor_decided hw]
      exact (DecodesTo.of_decision rfl fun e => hw (rxDecide_needMore_iff.1 e)).trans (ih _)

/-- A stream decodes to the outcomes it has without later bytes, and then to theirs (R120). -/
theorem decodesTo_stream (seed : List Host.Cell) (s : List Byte) :
    DecodesTo seed s (decodeStream seed s) (streamRest seed s) :=
  decodeFor_decodesTo seed (s.length + 1) s

/-- A run of bytes that open no frame costs one Skip each (R104). -/
theorem DecodesTo.skips (seed : List Host.Cell) {junk : List Byte}
    (h : ∀ b ∈ junk, b ≠ 0xFE#8 ∧ b ≠ 0xFD#8) : DecodesTo seed junk (junk.map .skip) [] := by
  induction junk with
  | nil => exact .refl seed []
  | cons b rest ih =>
    obtain ⟨hb, hrest⟩ := List.forall_mem_cons.1 h
    have hskip : wireHead (b :: rest) = .skip b :=
      wireHead_skip_iff.2 ⟨rest, rfl, Version.ofStart_eq_none.2 hb⟩
    exact (DecodesTo.of_decision (rxDecide_of_skip hskip) nofun).trans (ih hrest)

/-- Settles O29: the decision on one such byte, and a run of them (`DecodesTo.skips`). -/
theorem rxStepSkipsANonStartByte : Obligations.RxStepSkipsANonStartByte := by
  constructor
  · intro s b rest hbuf hfe hfd
    have hskip : wireHead s.block.rxbuf = .skip b :=
      wireHead_skip_iff.2 ⟨rest, hbuf, Version.ofStart_eq_none.2 ⟨hfe, hfd⟩⟩
    rw [exec_rxStep_of_decision (rxDecide_of_skip hskip), Block.applyDecision_skip, hbuf]
    rfl
  · intro seed junk x hjunk
    exact (DecodesTo.skips seed hjunk x).1

/-- From `b` to `b'` the counters have counted the outcomes `os`, modulo `2 ^ w`, and ACC and SEQ have stayed. -/
structure Block.Counts (w : Nat) (b : Block) (os : List RxOutcome) (b' : Block) : Prop where
  cntUnknown : b.cntUnknown < 2 ^ w → b'.cntUnknown = (b.cntUnknown + unknownCount os) % 2 ^ w
  cntCksum : b.cntCksum < 2 ^ w → b'.cntCksum = (b.cntCksum + checksumErrorCount os) % 2 ^ w
  acc : b'.acc = b.acc
  seq : b'.seq = b.seq

/-- A change of RXBUF alone goes with outcomes that no counter counts. -/
theorem Block.Counts.of_rxbuf (w : Nat) (b : Block) (buf : List Byte) {os : List RxOutcome}
    (hunknown : unknownCount os = 0) (hcksum : checksumErrorCount os = 0) :
    b.Counts w os { b with rxbuf := buf } where
  cntUnknown h := by rw [hunknown, Nat.add_zero, Nat.mod_eq_of_lt h]
  cntCksum h := by rw [hcksum, Nat.add_zero, Nat.mod_eq_of_lt h]
  acc := rfl
  seq := rfl

theorem Block.Counts.trans {w : Nat} {b b' b'' : Block} {os os' : List RxOutcome} (h : b.Counts w os b')
    (h' : b'.Counts w os' b'') : b.Counts w (os ++ os') b'' where
  cntUnknown hlt := by
    have hb := h.cntUnknown hlt
    rw [h'.cntUnknown (hb ▸ Nat.mod_lt _ (Nat.two_pow_pos w)), hb, Nat.mod_add_mod, unknownCount, unknownCount,
      unknownCount, List.countP_append, Nat.add_assoc]
  cntCksum hlt := by
    have hb := h.cntCksum hlt
    rw [h'.cntCksum (hb ▸ Nat.mod_lt _ (Nat.two_pow_pos w)), hb, Nat.mod_add_mod, checksumErrorCount,
      checksumErrorCount, checksumErrorCount, List.countP_append, Nat.add_assoc]
  acc := h'.acc.trans h.acc
  seq := h'.seq.trans h.seq

theorem Block.rxStep_counts (p : Params) (b : Block) : b.Counts p.cntW [(b.rxStep p).2] (b.rxStep p).1 := by
  unfold Block.rxStep
  obtain ⟨o, n⟩ := rxDecide p.seed b.rxbuf
  cases o with
  | needMore => exact .of_rxbuf p.cntW b _ rfl rfl
  | skip x => exact .of_rxbuf p.cntW b _ rfl rfl
  | frame f => exact .of_rxbuf p.cntW b _ rfl rfl
  | unknownMessage f => exact ⟨fun _ => rfl, fun h => (Nat.mod_eq_of_lt h).symm, rfl, rfl⟩
  | checksumError => exact ⟨fun h => (Nat.mod_eq_of_lt h).symm, fun _ => rfl, rfl, rfl⟩

theorem Block.drainFor_counts (p : Params) (n : Nat) (b : Block) :
    b.Counts p.cntW (b.drainFor p n).2 (b.drainFor p n).1 := by
  induction n generalizing b with
  | zero => exact .of_rxbuf p.cntW b b.rxbuf rfl rfl
  | succ n ih =>
    by_cases hw : wireHead b.rxbuf = .needMore
    · rw [Block.drainFor_needMore hw]
      exact .of_rxbuf p.cntW b b.rxbuf rfl rfl
    · rw [Block.drainFor_decided hw]
      exact (b.rxStep_counts p).trans (ih _)

/-- A schedule works through the bytes buffered at its start and the bytes accepted, and counts its outcomes. -/
theorem rxSchedule_decodesTo_counts (p : Params) (actions : List RxAction) (b : Block) :
    DecodesTo p.seed (b.rxbuf ++ (rxSchedule p actions b).accepted) (rxSchedule p actions b).outcomes
        (rxSchedule p actions b).block.rxbuf ∧
      b.Counts p.cntW (rxSchedule p actions b).outcomes (rxSchedule p actions b).block := by
  induction actions generalizing b with
  | nil =>
    rw [rxSchedule_nil, List.append_nil]
    exact ⟨.refl p.seed _, .of_rxbuf p.cntW b b.rxbuf rfl rfl⟩
  | cons a rest ih =>
    cases a with
    | push x =>
      by_cases hfull : b.rxbuf.length = p.bufCap
      · rw [rxSchedule_push_full hfull]
        exact ih b
      · obtain ⟨hdec, hcounts⟩ := ih { b with rxbuf := b.rxbuf ++ [x] }
        rw [List.append_assoc, List.singleton_append] at hdec
        rw [rxSchedule_push_room hfull]
        exact ⟨hdec, (Block.Counts.of_rxbuf p.cntW b _ (os := []) rfl rfl).trans hcounts⟩
    | step =>
      by_cases hw : wireHead b.rxbuf = .needMore
      · rw [rxSchedule_step_needMore hw]
        exact ih b
      · obtain ⟨hdec, hcounts⟩ := ih (b.rxStep p).1
        rw [rxSchedule_step_decided hw]
        exact ⟨((b.rxStep_decodesTo p hw).append _).trans hdec, (b.rxStep_counts p).trans hcounts⟩

/-- Settles O41: a stream's own decoding goes on with the longer stream's (`decodesTo_stream`), and a schedule with
its drain works through the accepted bytes to a buffer that waits for more (`DecodesTo.stream_eq`). -/
theorem decodingIsChunkIndependent : Obligations.DecodingIsChunkIndependent := by
  constructor
  · intro seed s x
    rw [(decodesTo_stream seed s x).1]
    exact List.prefix_append _ _
  · rintro p actions b hempty hunknown hcksum r d rfl rfl
    obtain ⟨hdec, hcounts⟩ := rxSchedule_decodesTo_counts p actions b
    rw [hempty, List.nil_append] at hdec
    obtain ⟨hdrain, hwait⟩ := Block.drainFor_decodesTo p (Nat.lt_succ_self (rxSchedule p actions b).block.rxLen)
    obtain ⟨hout, hrest⟩ := (hdec.trans hdrain).stream_eq hwait
    have hall := hcounts.trans (Block.drainFor_counts p ((rxSchedule p actions b).block.rxLen + 1) _)
    rw [hout] at hall
    exact ⟨hout, hrest, hall.cntUnknown hunknown, hall.cntCksum hcksum, hall.acc, hall.seq⟩

/-! ## Encoded frames in the stream (spec/41_rx_decode.md R121 to R123) -/

/-- The frame RX.STEP makes of what TX.ENCODE has built: its operands as fields, and the checksum written. -/
def encodedFrame (v : Version) (r : TxOperands) (sd : Byte) : Frame :=
  { protocolVersion := v, payloadLength := lenByte r.payload, sequence := r.sequence
    systemId := r.systemId, componentId := r.componentId, messageId := BitVec.ofNat 24 r.messageId
    payload := r.payload, checksum := crc16 ((txHeader v r).drop 1 ++ r.payload) sd }

/-- A version 1 id that fits its byte is widened to the same number. -/
theorem setWidth_ofNat_msgId {n : Nat} (h : n ≤ 255) :
    ((BitVec.ofNat 8 n).setWidth 24 : MsgId) = BitVec.ofNat 24 n := by
  apply BitVec.eq_of_toNat_eq
  rw [BitVec.toNat_setWidth, BitVec.toNat_ofNat, BitVec.toNat_ofNat]
  omega

theorem frameOfV1_builtV1 {r : TxOperands} (h : r.messageId ≤ 255) (sd : Byte) :
    frameOfV1 (builtV1 r sd) = encodedFrame .v1 r sd := by
  simp only [frameOfV1, builtV1, encodedFrame, setWidth_ofNat_msgId h]

theorem frameOfV2_builtV2 (r : TxOperands) (sd : Byte) :
    frameOfV2 (builtV2 r sd) = encodedFrame .v2 r sd := rfl

/-- The bytes TX.ENCODE builds are a complete candidate, from which RX.STEP assembles the operands, with the
checksum it carries over its region. -/
theorem buildFrame_candidate {v : Version} {r : TxOperands} (hid : r.messageId ≤ v.maxMessageId)
    (hpayload : r.payload.length ≤ 255) (sd : Byte) :
    (∀ x, wireHead (buildFrame v r sd ++ x) = .candidate v (buildFrame v r sd).length) ∧
      assembleFrame v (buildFrame v r sd) = encodedFrame v r sd ∧
      checksumRegion v (buildFrame v r sd) = (txHeader v r).drop 1 ++ r.payload := by
  cases v with
  | v1 =>
    rw [buildFrame_v1]
    exact ⟨fun x => wireHead_wireV1 _ x hpayload,
      (assembleFrame_wireV1 _ hpayload).trans (frameOfV1_builtV1 hid sd), checksumRegion_wireV1 _ hpayload⟩
  | v2 =>
    rw [buildFrame_v2]
    exact ⟨fun x => wireHead_wireV2 _ x hpayload,
      (assembleFrame_wireV2 _ hpayload).trans (frameOfV2_builtV2 r sd), checksumRegion_wireV2 _ hpayload⟩

/-- A frame just built is delivered, whatever follows it. -/
theorem rxDecide_buildFrame {seed : List Host.Cell} {v : Version} {r : TxOperands} {sd : Byte}
    (hid : r.messageId ≤ v.maxMessageId) (hpayload : r.payload.length ≤ 255)
    (hlookup : Registry.lookup seed r.messageId = some sd) (x : List Byte) :
    rxDecide seed (buildFrame v r sd ++ x) = ⟨.frame (encodedFrame v r sd), (buildFrame v r sd).length⟩ := by
  obtain ⟨hw, hframe, hregion⟩ := buildFrame_candidate hid hpayload sd
  have hmsgId : (encodedFrame v r sd).messageId.toNat = r.messageId := by
    have hmax : v.maxMessageId ≤ 16777215 := by cases v <;> decide
    simp only [encodedFrame, BitVec.toNat_ofNat]
    omega
  rw [rxDecide_of_candidate (hw x), List.take_left]
  rcases decideCandidate_cases seed v (buildFrame v r sd) with
    ⟨hl, -⟩ | ⟨sd', hl, hc, -⟩ | ⟨-, -, -, hd⟩
  · rw [hframe, hmsgId, hlookup] at hl
    cases hl
  · rw [hframe, hmsgId, hlookup] at hl
    obtain rfl := Option.some.inj hl
    rw [hframe, hregion] at hc
    exact absurd rfl hc
  · rw [hd, hframe]

/-- The bytes the checksum of R121 is taken over: all but the start byte and the last two. -/
theorem buildFrame_region (v : Version) (r : TxOperands) (sd : Byte) :
    ((buildFrame v r sd).take ((buildFrame v r sd).length - 2)).drop 1 = (txHeader v r).drop 1 ++ r.payload := by
  have hlen : (buildFrame v r sd).length - 2 = (txHeader v r ++ r.payload).length := by
    simp [buildFrame, checksumBytes]
    omega
  rw [hlen, buildFrame, List.take_left]
  cases v <;> rfl

/-- TX.ENCODE returns bytes only where the encode succeeds with them. -/
theorem encodeFrame_of_txOutcome {seed : List Host.Cell} {r : TxOperands} {w : List Byte}
    (h : txOutcome seed r = .encoded w) : encodeFrame seed r = .ok w := by
  unfold txOutcome at h
  split at h <;> cases h
  assumption

/-- Settles O46: TX.ENCODE has built the frame (`encodeFrame_ok_iff`), and RX.STEP decides it
(`rxDecide_buildFrame`). -/
theorem encodedFramesAreDelivered : Obligations.EncodedFramesAreDelivered := by
  intro s u t r w x henc hout hseed hbuf
  cases henc
  have hok : encodeFrame s.params.seed r = .ok w := encodeFrame_of_txOutcome (List.cons.inj hout).1
  obtain ⟨v, sd, hversion, hid, hpayload, hlookup, rfl⟩ := encodeFrame_ok_iff.1 hok
  refine ⟨v, sd, hversion, hlookup, ?_⟩
  have hd : rxDecide t.params.seed t.block.rxbuf = ⟨.frame (encodedFrame v r sd), (buildFrame v r sd).length⟩ := by
    rw [hseed, hbuf]
    exact rxDecide_buildFrame hid hpayload hlookup x
  rw [exec_rxStep_of_decision hd, Block.applyDecision_frame, hbuf, List.drop_left, buildFrame_region]
  rfl

/-- An encoded frame begins with its version's start byte. -/
theorem buildFrame_eq_cons (v : Version) (r : TxOperands) (sd : Byte) :
    ∃ rest, buildFrame v r sd = v.startByte :: rest := by
  cases v <;> exact ⟨_, rfl⟩

/-- What a stream sees of an encoded frame: it is decided on its own, it costs one outcome, whatever follows it,
and its first byte is a start byte. -/
theorem encodeFrame_ok_delivered {seed : List Host.Cell} {r : TxOperands} {w : List Byte}
    (h : encodeFrame seed r = .ok w) :
    ∃ f, rxDecide seed w = ⟨.frame f, w.length⟩ ∧ DecodesTo seed w [.frame f] [] ∧
      ∃ (v : Version) (rest : List Byte), w = v.startByte :: rest := by
  obtain ⟨v, sd, -, hid, hpayload, hlookup, rfl⟩ := encodeFrame_ok_iff.1 h
  have hd := rxDecide_buildFrame hid hpayload hlookup []
  rw [List.append_nil] at hd
  have hdec := DecodesTo.of_decision hd nofun
  rw [List.drop_length] at hdec
  exact ⟨_, hd, hdec, v, buildFrame_eq_cons v r sd⟩

/-- A stream worked through to its last byte has these outcomes and leaves nothing. -/
theorem DecodesTo.stream_of_nil {seed : List Host.Cell} {s : List Byte} {os : List RxOutcome}
    (h : DecodesTo seed s os []) : decodeStream seed s = os ∧ streamRest seed s = [] := by
  obtain ⟨hout, hrest⟩ := h.stream_eq wireHead_nil
  exact ⟨hout.symm, hrest.symm⟩

/-- A start byte taken for a length byte claims a frame of 261 to 266 bytes (R122). -/
theorem frameLen_startByte_bounds (v u : Version) :
    261 ≤ frameLen v u.startByte.toNat ∧ frameLen v u.startByte.toNat ≤ 266 := by
  cases v <;> cases u <;> decide

/-- Settles O47: around a byte that opens no frame each part of the stream is worked through by itself; behind a start
byte the second frame's start byte stands where a candidate has its length, and the rest waits. -/
theorem aBadByteBetweenTwoFrames : Obligations.ABadByteBetweenTwoFrames := by
  intro seed r1 r2 w1 w2 b h1 h2
  obtain ⟨f1, hd1, hdec1, -⟩ := encodeFrame_ok_delivered h1
  obtain ⟨f2, hd2, hdec2, u, rest, hcons⟩ := encodeFrame_ok_delivered h2
  refine ⟨f1, f2, hd1, hd2, fun hfe hfd => ?_, fun v hv => ?_⟩
  · have hskip : DecodesTo seed [b] [.skip b] [] := .skips seed (by simp [hfe, hfd])
    have hfirst : DecodesTo seed (w1 ++ [b] ++ w2) [.frame f1] ([b] ++ w2) := by
      rw [List.append_assoc]
      exact hdec1.append ([b] ++ w2)
    exact ((hfirst.trans (hskip.append w2)).trans hdec2).stream_of_nil
  · subst hcons
    obtain rfl := Version.ofStart_eq_some.1 hv
    obtain ⟨hge, hle⟩ := frameLen_startByte_bounds v u
    refine ⟨hge, hle, fun x hshort => ?_⟩
    rw [List.append_assoc w1, List.append_assoc w1]
    have hwait : wireHead ([v.startByte] ++ u.startByte :: rest ++ x) = .needMore :=
      wireHead_of_short_frame (lt_of_eq_of_lt (by simp; omega) hshort)
    obtain ⟨hout, hrest⟩ := (hdec1.append ([v.startByte] ++ u.startByte :: rest ++ x)).stream_eq hwait
    exact ⟨hout.symm, hrest.symm⟩

/-- Settles O48: one ChecksumError, the damaged bytes one by one (`DecodesTo.skips`), then the frame. -/
theorem aCorruptedFrameCostsOnlyItself : Obligations.ACorruptedFrameCostsOnlyItself := by
  intro seed b tail r w hbad hjunk hok
  obtain ⟨f, hd, hdec, -⟩ := encodeFrame_ok_delivered hok
  have hdropped : DecodesTo seed (b :: tail) [.checksumError] tail := .of_decision hbad nofun
  have hdamaged := (hdropped.trans (.skips seed hjunk)).append w
  exact ⟨f, hd, (hdamaged.trans hdec).stream_of_nil⟩

end Sys2Proof.Machine

namespace Sys2Proof.Machine

/-! ## The tests of TX.ENCODE (spec/42_tx_encode.md R132) -/

theorem ofNumber_eq_none {n : Nat} (h1 : n ≠ 1) (h2 : n ≠ 2) : Version.ofNumber n = none := by
  refine Option.eq_none_iff_forall_ne_some.2 fun v hv => ?_
  cases v with
  | v1 => exact h1 (ofNumber_eq_some_iff.1 hv)
  | v2 => exact h2 (ofNumber_eq_some_iff.1 hv)

/-- R132 writes a condition on the version out for 1 and for 2; the encoder tests it on the version named. -/
theorem exists_ofNumber_of_cases {P : Version → Prop} {n : Nat} (h : n = 1 ∧ P .v1 ∨ n = 2 ∧ P .v2) :
    ∃ v, Version.ofNumber n = some v ∧ P v := by
  rcases h with ⟨hn, hP⟩ | ⟨hn, hP⟩
  · exact ⟨.v1, ofNumber_eq_some_iff.2 hn, hP⟩
  · exact ⟨.v2, ofNumber_eq_some_iff.2 hn, hP⟩

section
variable {seed : List Host.Cell} {r : TxOperands} {v : Version}

theorem encodeFrame_badVersion (hversion : Version.ofNumber r.version = none) :
    encodeFrame seed r = .error .badVersion := by
  rw [encodeFrame, hversion]

theorem encodeFrame_badMessageId (hversion : Version.ofNumber r.version = some v)
    (hid : v.maxMessageId < r.messageId) : encodeFrame seed r = .error .badMessageId := by
  rw [encodeFrame, hversion]
  exact if_pos hid

theorem encodeFrame_payloadTooLong (hversion : Version.ofNumber r.version = some v)
    (hid : r.messageId ≤ v.maxMessageId) (hpayload : 255 < r.payload.length) :
    encodeFrame seed r = .error .payloadTooLong := by
  rw [encodeFrame, hversion]
  exact (if_neg (Nat.not_lt.2 hid)).trans (if_pos hpayload)

theorem encodeFrame_unknownMessage (hversion : Version.ofNumber r.version = some v)
    (hid : r.messageId ≤ v.maxMessageId) (hpayload : r.payload.length ≤ 255)
    (hlookup : Registry.lookup seed r.messageId = none) : encodeFrame seed r = .error .unknownMessage := by
  rw [encodeFrame, hversion, hlookup]
  exact (if_neg (Nat.not_lt.2 hid)).trans (if_neg (Nat.not_lt.2 hpayload))

end

/-- TX.ENCODE answers the encoder's bytes and writes nothing of the block (R133). -/
theorem exec_txEncode_of_ok {s : State} {r : TxOperands} {w : List Byte}
    (h : encodeFrame s.params.seed r = .ok w) :
    exec (.txEncode r) s = .next (s.finish s.block (.encoded w)) := by
  rw [exec, execTxEncode, txOutcome, h]

/-- TX.ENCODE answers the encoder's refusal and writes nothing of the block (R133). -/
theorem exec_txEncode_of_error {s : State} {r : TxOperands} {e : EncRefusal}
    (h : encodeFrame s.params.seed r = .error e) :
    exec (.txEncode r) s = .next (s.finish s.block (.encRefused e)) := by
  rw [exec, execTxEncode, txOutcome, h]

/-- Settles O50: the state takes the encoder's refusal over, and each refusal is that of its own test, the tests
before it passed. -/
theorem txEncodeRefusesInOrder : Obligations.TxEncodeRefusesInOrder := by
  refine ⟨⟨rfl, rfl, rfl, rfl⟩, fun s r => ⟨fun h1 h2 => ?_, fun hbad => ?_, fun hfits hlong => ?_,
    fun hfits hpayload hlookup => ?_⟩⟩ <;> apply exec_txEncode_of_error
  · exact encodeFrame_badVersion (ofNumber_eq_none h1 h2)
  · obtain ⟨v, hversion, hid⟩ := exists_ofNumber_of_cases (P := fun v => v.maxMessageId < r.messageId) hbad
    exact encodeFrame_badMessageId hversion hid
  · obtain ⟨v, hversion, hid⟩ := exists_ofNumber_of_cases (P := fun v => r.messageId ≤ v.maxMessageId) hfits
    exact encodeFrame_payloadTooLong hversion hid hlong
  · obtain ⟨v, hversion, hid⟩ := exists_ofNumber_of_cases (P := fun v => r.messageId ≤ v.maxMessageId) hfits
    exact encodeFrame_unknownMessage hversion hid hpayload hlookup

/-! ## The bytes TX.ENCODE writes (spec/42_tx_encode.md R131) -/

/-- A byte of a field, counted from its low end, is a quotient of the field's number. -/
theorem extractLsb'_byte_eq_ofNat_div {n : Nat} (x : BitVec n) (k : Nat) :
    x.extractLsb' k 8 = BitVec.ofNat 8 (x.toNat / 2 ^ k) := by
  rw [BitVec.extractLsb', Nat.shiftRight_eq_div_pow]

theorem checksumBytes_eq_ofNat (c : Word) :
    checksumBytes c = [BitVec.ofNat 8 c.toNat, BitVec.ofNat 8 (c.toNat / 256)] := by
  simp only [checksumBytes, extractLsb'_byte_eq_ofNat_div, Nat.pow_zero, Nat.div_one, Nat.reducePow]

theorem msgIdBytes_ofNat {id : Nat} (h : id ≤ 16777215) :
    msgIdBytes (BitVec.ofNat 24 id) =
      [BitVec.ofNat 8 id, BitVec.ofNat 8 (id / 256), BitVec.ofNat 8 (id / 65536)] := by
  have hid : (BitVec.ofNat 24 id).toNat = id := Nat.mod_eq_of_lt (Nat.lt_succ_of_le h)
  simp only [msgIdBytes, extractLsb'_byte_eq_ofNat_div, hid, Nat.pow_zero, Nat.div_one, Nat.reducePow]

theorem txHeader_v1 (r : TxOperands) :
    txHeader .v1 r = [0xFE#8, BitVec.ofNat 8 r.payload.length, r.sequence, r.systemId, r.componentId,
      BitVec.ofNat 8 r.messageId] := rfl

theorem txHeader_v2 {r : TxOperands} (hid : r.messageId ≤ 16777215) :
    txHeader .v2 r = [0xFD#8, BitVec.ofNat 8 r.payload.length, 0#8, 0#8, r.sequence, r.systemId, r.componentId,
      BitVec.ofNat 8 r.messageId, BitVec.ofNat 8 (r.messageId / 256), BitVec.ofNat 8 (r.messageId / 65536)] := by
  rw [txHeader, headerV2, msgIdBytes_ofNat hid]
  rfl

/-- The frame behind a header written out: the checksum leaves out the start byte alone, and follows the payload low
byte first (spec/30_encoding.md R54). -/
theorem buildFrame_of_header {v : Version} {r : TxOperands} {start : Byte} {fields : List Byte}
    (h : txHeader v r = start :: fields) (sd : Byte) :
    buildFrame v r sd = (start :: fields) ++ r.payload ++
      [BitVec.ofNat 8 (crc16 (fields ++ r.payload) sd).toNat,
        BitVec.ofNat 8 ((crc16 (fields ++ r.payload) sd).toNat / 256)] := by
  rw [buildFrame, h, checksumBytes_eq_ofNat]
  rfl

/-- Settles O49: all four tests pass (`encodeFrame_ok_iff`), and the frame built is each version's header with its
payload and checksum (`buildFrame_of_header`). -/
theorem txEncodeBuildsTheFrame : Obligations.TxEncodeBuildsTheFrame := by
  constructor
  · rintro s r sd _ hversion hid hpayload hlookup rfl
    have hok := encodeFrame_ok_iff.2
      ⟨.v1, sd, ofNumber_eq_some_iff.2 hversion, hid, hpayload, hlookup, rfl⟩
    rw [exec_txEncode_of_ok hok, buildFrame_of_header (txHeader_v1 r)]
  · rintro s r sd _ hversion hid hpayload hlookup rfl
    have hok := encodeFrame_ok_iff.2
      ⟨.v2, sd, ofNumber_eq_some_iff.2 hversion, hid, hpayload, hlookup, rfl⟩
    rw [exec_txEncode_of_ok hok, buildFrame_of_header (txHeader_v2 hid)]

/-! ## SEQ.TAKE (spec/42_tx_encode.md R137) -/

/-- R137's next value of SEQ, on naturals modulo 256, is the byte's own increment. -/
theorem ofNat_succ_mod (q : Byte) : BitVec.ofNat 8 ((q.toNat + 1) % 256) = q + 1#8 := by
  apply BitVec.eq_of_toNat_eq
  simp only [BitVec.toNat_ofNat, BitVec.toNat_add]
  omega

/-- Settles O52: the word has argument 0, and the meaning is R137's pseudocode with the increment on bytes. -/
theorem seqTakeReturnsThenIncrements : Obligations.SeqTakeReturnsThenIncrements := by
  refine ⟨fun _ => rfl, fun s => ?_⟩
  rw [ofNat_succ_mod]
  rfl

end Sys2Proof.Machine

namespace Sys2Proof

/-! ## What the command decoder answers, by the word's fields (spec/30_encoding.md R61) -/

section
variable {w : Word} (r : TxOperands)

/-- The reserved bits are looked at before the operation's number and its argument. -/
theorem decodeCommand_reservedBits (hreserved : w.extractLsb' 8 4 ≠ 0#4) :
    decodeCommand w r = .error .reservedBits :=
  if_pos hreserved

theorem decodeCommand_reservedOp (hreserved : w.extractLsb' 8 4 = 0#4) (hop : 9 ≤ (w.extractLsb' 12 4).toNat) :
    decodeCommand w r = .error .reservedOp := by
  simp only [decodeCommand, hreserved, ne_eq, not_true_eq_false, if_false]
  split
  case h_10 => rfl
  all_goals omega

theorem decodeCommand_argNotZero (hreserved : w.extractLsb' 8 4 = 0#4)
    (hop : (w.extractLsb' 12 4).toNat ∈ [0, 1, 3, 5, 6, 7]) (harg : w.extractLsb' 0 8 ≠ 0#8) :
    decodeCommand w r = .error .argNotZero := by
  simp only [List.mem_cons, List.not_mem_nil, or_false] at hop
  rcases hop with hop | hop | hop | hop | hop | hop <;> simp [decodeCommand, noArg, hreserved, hop, harg]

/-- CSR.READ's number is the low half of the argument; the high half must be zero. -/
theorem decodeCommand_of_csrRead_op (hreserved : w.extractLsb' 8 4 = 0#4) (hop : (w.extractLsb' 12 4).toNat = 8) :
    decodeCommand w r =
      if w.extractLsb' 4 4 ≠ 0#4 then .error .argNotZero else .ok (.csrRead (w.extractLsb' 0 4)) := by
  simp only [decodeCommand, hreserved, hop, ne_eq, not_true_eq_false, if_false]

end

/-- An argument without a high half is its low half's number. -/
theorem toNat_arg_of_high_eq_zero {w : Word} (hhigh : w.extractLsb' 4 4 = 0#4) :
    (w.extractLsb' 0 8).toNat = (w.extractLsb' 0 4).toNat := by
  rw [arg_fields, hhigh, BitVec.toNat_append]
  simp

/-- The word of CSR.READ as R61 writes it. -/
theorem csrRead_word_or (n : BitVec 4) : 0x8000#16 ||| n.setWidth 16 = (0x800#12 ++ n : Word) := by
  revert n
  decide

end Sys2Proof

namespace Sys2Proof.Machine

/-! ## The system operations and words of no form (spec/43_system.md) -/

/-- Settles O13: the meaning of RESET is R150's block, and its word has argument 0. -/
theorem resetWritesEveryItem : Obligations.ResetWritesEveryItem :=
  ⟨fun _ => rfl, fun _ => rfl⟩

/-- The reserved numbers of CSR.READ (R152). -/
theorem exec_csrRead_reserved (s : State) {n : BitVec 4} (h : 4 < n.toNat) :
    exec (.csrRead n) s = .next (s.finish s.block .badOp) := by
  rw [exec, execCsrRead, csrOutcome_reserved s.block h]

/-- Settles O56: registers 0 to 4 by the register table, the reserved numbers by `exec_csrRead_reserved`. -/
theorem csrReadReturnsTheRegister : Obligations.CsrReadReturnsTheRegister := by
  constructor
  · intro n r
    rw [csrRead_word_or]
    exact decodeCommand_csrRead n r
  · exact fun s => ⟨rfl, rfl, rfl, rfl, rfl, fun _ => exec_csrRead_reserved s⟩

/-- A word of CSR.READ with an argument above 4 is refused either way: by the decoder where the argument has a high
half, by the operation where it is a reserved number (log entry 14). -/
theorem step_csrRead_op_reserved {s : State} {q : Request} {rest : List Request} (hp : s.port.pending = q :: rest)
    (hreserved : q.word.extractLsb' 8 4 = 0#4) (hop : (q.word.extractLsb' 12 4).toNat = 8)
    (harg : 4 < (q.word.extractLsb' 0 8).toNat) :
    step s = .next ((s.withPending rest).refuse .badOp) := by
  have hd := decodeCommand_of_csrRead_op q.operands hreserved hop
  by_cases hhigh : q.word.extractLsb' 4 4 = 0#4
  · rw [if_neg (not_not.2 hhigh)] at hd
    rw [toNat_arg_of_high_eq_zero hhigh] at harg
    exact (step_ok hp hd).trans (exec_csrRead_reserved _ harg)
  · rw [if_pos hhigh] at hd
    exact step_error hp hd

/-- Settles O9: with reserved bits set the decoder refuses whatever the rest says; without, each remaining clause is
refused by the decoder, or by CSR.READ itself. -/
theorem wordsOfNoFormAnswerBadOp : Obligations.WordsOfNoFormAnswerBadOp := by
  refine ⟨rfl, fun s q rest hp hform => ?_⟩
  by_cases hreserved : q.word.extractLsb' 8 4 = 0#4
  · rcases hform with hop | hbits | ⟨hop, harg⟩ | ⟨hop, harg⟩
    · exact step_error hp (decodeCommand_reservedOp _ hreserved hop)
    · exact absurd hreserved hbits
    · exact step_error hp (decodeCommand_argNotZero _ hreserved hop harg)
    · exact step_csrRead_op_reserved hp hreserved hop harg
  · exact step_error hp (decodeCommand_reservedBits _ hreserved)

end Sys2Proof.Machine

namespace Sys2Proof.Machine

/-! ## Every operation completes, and what a refusal or idle outcome leaves (spec/60_exceptions.md R160, R168, R173) -/

/-- Settles O11: the nine operations answer in every state (`exec_operation_next`), a full buffer refuses the push
(R111), and being as long as the longest frame it decides (`wireHead_of_maxFrame_le`). -/
theorem everyOperationCompletesInEveryState : Obligations.EveryOperationCompletesInEveryState := by
  refine ⟨fun s i hv1 hv2 => ?_, fun s hcap hfull => ⟨fun b => ?_, ?_⟩⟩
  · obtain ⟨b, o, h⟩ := exec_operation_next i s hv1 hv2
    exact ⟨_, h⟩
  · obtain ⟨hrefused, -⟩ := rxPushAppendsOrIsRefused.2 s b
    exact hrefused hfull
  · have hdecides : wireHead s.block.rxbuf ≠ .needMore := wireHead_of_maxFrame_le (hfull ▸ hcap)
    exact ⟨_, _, exec_rxStep_of_decision rfl, rfl, Block.rxStep_ne_needMore_iff.2 hdecides⟩

/-- The outcomes of the two kinds of R160 that change nothing. -/
def OpOutcome.ChangesNothing (o : OpOutcome) : Prop := o.kind = .refusal ∨ o.kind = .idle

theorem OpOutcome.not_changesNothing_of_result {o : OpOutcome} (h : o.kind = .result) : ¬ o.ChangesNothing := by
  simp [OpOutcome.ChangesNothing, h]

/-- Of RX.STEP's outcomes NeedMore is the one idle outcome, and none is a refusal. -/
theorem RxOutcome.changesNothing_iff {o : RxOutcome} : (OpOutcome.rx o).ChangesNothing ↔ o = .needMore := by
  cases o <;> simp [OpOutcome.ChangesNothing, OpOutcome.kind, RxOutcome.kind]

/-- A complete candidate is decided, one way or another. -/
theorem decideCandidate_ne_needMore (seed : List Host.Cell) (v : Version) (bs : List Byte) :
    (decideCandidate seed v bs).outcome ≠ .needMore := by
  rcases decideCandidate_cases seed v bs with ⟨-, h⟩ | ⟨_, -, -, h⟩ | ⟨_, -, -, h⟩ <;> rw [h] <;> nofun

/-- A wire format's instruction ends in a decision, never idle and never refused. -/
theorem consumeCandidate_changesNothing {v : Version} {bs : List Byte} {s t : State}
    (h : consumeCandidate v bs s = .next t) :
    ∃ o, t.port.outcomes = o :: s.port.outcomes ∧ (o.ChangesNothing → t.block = s.block) := by
  obtain ⟨-, rfl⟩ := consumeCandidate_next h
  exact ⟨_, rfl, fun hidle => absurd (RxOutcome.changesNothing_iff.1 hidle) (decideCandidate_ne_needMore _ _ _)⟩

/-- RX.PUSH refused leaves the block (R111). -/
theorem Block.push_changesNothing {cap : Nat} {b : Block} {x : Byte} (h : (b.push cap x).2.ChangesNothing) :
    (b.push cap x).1 = b := by
  rcases Block.push_cases cap b x with ⟨-, hfull⟩ | ⟨-, hroom⟩
  · rw [hfull]
  · rw [hroom] at h
    exact absurd h (OpOutcome.not_changesNothing_of_result rfl)

/-- RX.STEP idle leaves the block (R117). -/
theorem Block.rxStep_changesNothing {p : Params} {b : Block} (h : (OpOutcome.rx (b.rxStep p).2).ChangesNothing) :
    (b.rxStep p).1 = b := by
  rw [Block.rxStep_needMore (rxDecide_needMore_iff.1 (RxOutcome.changesNothing_iff.1 h))]

/-- Every instruction returns an outcome, and leaves the block where the outcome is of a kind that changes nothing:
either the outcome is of another kind, or the operation writes nothing. -/
theorem exec_changesNothing {i : Instr} {s t : State} (h : exec i s = .next t) :
    ∃ o, t.port.outcomes = o :: s.port.outcomes ∧ (o.ChangesNothing → t.block = s.block) := by
  have hresult {o : OpOutcome} (ho : o.kind = .result) (hidle : o.ChangesNothing) : t.block = s.block :=
    absurd hidle (OpOutcome.not_changesNothing_of_result ho)
  cases i with
  | frameV1 f => exact consumeCandidate_changesNothing h
  | frameV2 f => exact consumeCandidate_changesNothing h
  | reset => cases h; exact ⟨.done, rfl, hresult rfl⟩
  | crcInit => cases h; exact ⟨.done, rfl, hresult rfl⟩
  | crcAcc b => cases h; exact ⟨.done, rfl, hresult rfl⟩
  | crcRead => cases h; exact ⟨_, rfl, fun _ => rfl⟩
  | rxPush b => cases h; exact ⟨_, rfl, Block.push_changesNothing⟩
  | rxStep => cases h; exact ⟨_, rfl, Block.rxStep_changesNothing⟩
  | txEncode r => cases h; exact ⟨_, rfl, fun _ => rfl⟩
  | seqTake => cases h; exact ⟨.value _, rfl, hresult rfl⟩
  | csrRead n => cases h; exact ⟨_, rfl, fun _ => rfl⟩

/-- Settles O59: the parameters and the other requests by `exec_finish`, the outcome and the block by
`exec_changesNothing`. -/
theorem refusalsAndIdleOutcomesChangeNothing : Obligations.RefusalsAndIdleOutcomesChangeNothing := by
  intro i s t h
  obtain ⟨o, hout, hkeeps⟩ := exec_changesNothing h
  obtain ⟨b, o', rfl⟩ := exec_finish h
  exact ⟨rfl, rfl, o, hout, hkeeps⟩

end Sys2Proof.Machine

namespace Sys2Proof.Machine

/-! ## The runs of the pending requests (spec/00_scope.md section 6, spec/70_reset_and_hazards.md R194) -/

theorem Request.isReset_iff {q : Request} :
    q.isReset = true ↔ decodeCommand q.word q.operands = .ok .reset := by
  unfold Request.isReset
  split
  · next h => exact iff_of_true rfl h
  · next h => exact iff_of_false Bool.false_ne_true h

theorem Request.not_isReset_of_decode {q : Request} {i : Instr} (hd : decodeCommand q.word q.operands = .ok i)
    (hi : i ≠ .reset) : q.isReset = false := by
  rw [Bool.eq_false_iff, ne_eq, Request.isReset_iff, hd]
  exact fun h => hi (Except.ok.inj h)

/-- With nothing pending the run under way ends with the block as it stands. -/
theorem State.runs_nil {s : State} (hp : s.port.pending = []) : s.runs = [{ outcomes := [], final := s.block }] := by
  rw [State.runs, hp, List.length_nil, runsFor_zero]

/-- A RESET ends the run under way, and the next one begins in the block RESET writes. -/
theorem State.runs_reset {s : State} {q : Request} {rest : List Request} (hp : s.port.pending = q :: rest)
    (hq : q.isReset = true) :
    s.runs = { outcomes := [], final := s.block } :: ((s.withPending rest).finish Block.reset .done).runs := by
  have hstep : step s = .next ((s.withPending rest).finish Block.reset .done) :=
    step_ok hp (Request.isReset_iff.1 hq)
  rw [State.runs, hp, List.length_cons, runsFor_reset hp hstep hq]
  rfl

/-- Any other request puts its outcome before those of the run under way. -/
theorem State.runs_other {s : State} {q : Request} {rest : List Request} {b : Block} {o : OpOutcome}
    (hp : s.port.pending = q :: rest) (hq : q.isReset = false)
    (hstep : step s = .next ((s.withPending rest).finish b o)) :
    s.runs = continueRun o ((s.withPending rest).finish b o).runs := by
  rw [State.runs, hp, List.length_cons, runsFor_other hp hstep hq rfl]
  rfl

/-- What the port has returned before is no part of the runs to come: by induction on the pending requests. -/
theorem State.Alike.runs_eq {s u : State} (h : s.Alike u) : s.runs = u.runs := by
  induction hp : s.port.pending generalizing s u with
  | nil => rw [State.runs_nil hp, State.runs_nil (h.pending_eq ▸ hp), h.block_eq]
  | cons q rest ih =>
    have hq : u.port.pending = q :: rest := h.pending_eq ▸ hp
    cases hreset : q.isReset with
    | true =>
      rw [State.runs_reset hp hreset, State.runs_reset hq hreset, h.block_eq,
        ih ((h.withPending rest).finish Block.reset .done) rfl]
    | false =>
      obtain ⟨b, o, hs, hu⟩ := step_same_ending h hp
      rw [State.runs_other hp hreset hs, State.runs_other hq hreset hu, ih ((h.withPending rest).finish b o) rfl]

/-- A request is performed the same way whatever is pending behind it. -/
theorem step_same_ending_of_head {s : State} {q : Request} {rest : List Request} (hp : s.port.pending = q :: rest)
    (rest' : List Request) :
    ∃ b o, step s = .next ((s.withPending rest).finish b o) ∧
      step (s.withPending (q :: rest')) = .next ((s.withPending rest').finish b o) := by
  have hp' : (s.withPending (q :: rest')).port.pending = q :: rest' := rfl
  cases hd : decodeCommand q.word q.operands with
  | ok i =>
    rw [step_ok hp hd, step_ok hp' hd]
    obtain ⟨hv1, hv2⟩ := decodeCommand_ne_frame hd
    exact exec_same_ending hv1 hv2 rfl rfl
  | error e => exact ⟨s.block, .badOp, step_error hp hd, step_error hp' hd⟩

/-- Settles O16, by induction on the requests before the RESET: each puts its outcome before those of the same run
with and without the RESET, and behind the RESET the machine is alike to one just reset (`State.Alike.runs_eq`). -/
theorem runsEndAtReset : Obligations.RunsEndAtReset := by
  intro s before after q hp hbefore hq
  induction before generalizing s with
  | nil =>
    have hreset : ((s.withPending after).finish Block.reset .done).Alike
        ((State.resetWith s.params).withPending after) := ⟨rfl, rfl, rfl⟩
    exact ⟨_, State.runs_nil rfl, (State.runs_reset hp hq).trans (congrArg _ hreset.runs_eq)⟩
  | cons p before ih =>
    obtain ⟨hfirst, hothers⟩ := List.forall_mem_cons.1 hbefore
    obtain ⟨b, o, hstep, hstep'⟩ := step_same_ending_of_head hp before
    obtain ⟨r, hone, hruns⟩ := ih ((s.withPending (before ++ q :: after)).finish b o) rfl hothers
    refine ⟨{ r with outcomes := o :: r.outcomes }, ?_, ?_⟩
    · exact (State.runs_other rfl hfirst hstep').trans (congrArg (continueRun o) hone)
    · exact (State.runs_other hp hfirst hstep).trans (congrArg (continueRun o) hruns)

/-! ## A full buffer (spec/70_reset_and_hazards.md R195) -/

/-- Settles O43: a buffer as long as the longest frame decides (`wireHead_of_maxFrame_le`), and the decision makes
room for the push (`Block.rxStep_makes_room`). -/
theorem fullBufferAlwaysMakesProgress : Obligations.FullBufferAlwaysMakesProgress := by
  intro s t b hcap hfull hexec
  cases hexec
  have hdecides : wireHead s.block.rxbuf ≠ .needMore := wireHead_of_maxFrame_le (hfull ▸ hcap)
  obtain ⟨-, hpush⟩ := rxPushAppendsOrIsRefused.2
    (s.finish (s.block.rxStep s.params).1 (.rx (s.block.rxStep s.params).2)) b
  exact ⟨⟨_, rfl, Block.rxStep_ne_needMore_iff.2 hdecides⟩, hpush (Block.rxStep_makes_room hcap hfull)⟩

/-! ## The results of a receive run (spec/70_reset_and_hazards.md R194) -/

theorem RxAction.request_isReset (a : RxAction) : a.request.isReset = false :=
  Request.not_isReset_of_decode a.decode_request (by cases a <;> nofun)

/-- RX.PUSH and RX.STEP return no encoded frame. -/
theorem encodedFrames_rxAction (a : RxAction) (p : Params) (b : Block) (os : List OpOutcome) :
    encodedFrames ((a.result p b).2 :: os) = encodedFrames os := by
  cases a with
  | push x => rcases Block.push_cases p.bufCap b x with ⟨-, hp⟩ | ⟨-, hp⟩ <;> rw [RxAction.result, hp] <;> rfl
  | step => rfl

/-- The one run of a schedule performed on the machine: the receive outcomes and the block are the schedule's, and
nothing is transmitted. -/
structure Run.Performs (r : Run) (q : RxRun) : Prop where
  decisions : rxOutcomes r.outcomes = q.outcomes
  final : r.final = q.block
  sent : encodedFrames r.outcomes = []

/-- A schedule performed on the machine is one run, by induction on the actions. -/
theorem runs_rxActions (actions : List RxAction) (s : State) (hp : s.port.pending = actions.map RxAction.request) :
    ∃ r, s.runs = [r] ∧ r.Performs (rxSchedule s.params actions s.block) := by
  induction actions generalizing s with
  | nil => exact ⟨_, State.runs_nil hp, rfl, rfl, rfl⟩
  | cons a rest ih =>
    obtain ⟨b, o, hstep, hblock, houtcomes⟩ := step_rxAction s a rest hp
    have hresult : o = (a.result s.params s.block).2 := by
      have hsame := hstep.symm.trans ((step_ok hp a.decode_request).trans (a.exec_instr _))
      exact (List.cons.inj (congrArg (·.port.outcomes) (Host.Outcome.next.inj hsame))).1
    obtain ⟨r, hruns, hr⟩ := ih ((s.withPending (rest.map RxAction.request)).finish b o) rfl
    refine ⟨{ r with outcomes := o :: r.outcomes }, ?_, ?_, hr.final.trans hblock.symm, ?_⟩
    · rw [State.runs_other hp a.request_isReset hstep, hruns, continueRun_cons]
    · rw [houtcomes]
      exact (rxOutcomes_append [o] r.outcomes).trans (congrArg _ hr.decisions)
    · rw [hresult, encodedFrames_rxAction, hr.sent]

/-- Settles O45: the run is the schedule's (`runs_rxActions`), and a schedule that ends waiting for more has worked
through the accepted bytes and counted its outcomes (`rxSchedule_decodesTo_counts`, `DecodesTo.stream_eq`). -/
theorem receiveResultIsTheDecodedStream : Obligations.ReceiveResultIsTheDecodedStream := by
  rintro p actions q os rfl rfl hwait
  obtain ⟨r, hruns, hdecisions, hfinal, hsent⟩ :=
    runs_rxActions actions ((State.resetWith p).withPending (actions.map RxAction.request)) rfl
  rw [State.withPending_params, State.resetWith_params, State.withPending_block, State.resetWith_block]
    at hdecisions hfinal
  obtain ⟨hdec, hcounts⟩ := rxSchedule_decodesTo_counts p actions Block.reset
  obtain ⟨hout, hrest⟩ := hdec.stream_eq (rxDecide_needMore_iff.1 hwait)
  have hunknown := hcounts.cntUnknown (Nat.two_pow_pos p.cntW)
  have hcksum := hcounts.cntCksum (Nat.two_pow_pos p.cntW)
  rw [Block.reset_cntUnknown, Nat.zero_add] at hunknown
  rw [Block.reset_cntCksum, Nat.zero_add] at hcksum
  rw [Block.reset_rxbuf, List.nil_append] at hout hrest
  refine ⟨r, hruns, ?_, ?_⟩
  · rw [Run.receiveResult, hdecisions, hfinal, hunknown, hcksum, ← hrest, hout]
  · rw [Run.transmitResult, hsent, hfinal, hcounts.seq, Block.reset_seq]

/-! ## Reset (spec/70_reset_and_hazards.md R190) -/

/-- R8's defaults meet R8's constraints, whatever the registry's rows are. -/
theorem Params.default_legal : Params.default.Legal where
  bufCap_ge := by decide
  cntW_pos := by decide
  seed_wf := Registry.wf_ofRows Config.seedRows

/-- Settles O14: legal parameters, RESET's block, and no outcome returned yet. -/
theorem resetStateSatisfiesTheInvariant : Obligations.ResetStateSatisfiesTheInvariant :=
  ⟨⟨Params.default_legal, Block.legal_reset Params.default, nofun⟩, rfl⟩

/-! ## TX.SEND as two operations (spec/70_reset_and_hazards.md R204) -/

/-- Settles O54: SEQ.TAKE writes the advanced SEQ, and TX.ENCODE writes nothing, whether or not it is refused. -/
theorem sendConsumesASequenceValue : Obligations.SendConsumesASequenceValue :=
  fun s _ => ⟨_, _, rfl, rfl, rfl, rfl, Block.advanceSeq_seq s.block⟩

end Sys2Proof.Machine
